-- ==== Sys2Proof/Word.lean ====
section
/-! DEFINITION. The words of EC-CORE and its plain points: the 32-bit bus word, the byte, the width parameter, the
big number, a register index, and the affine and Jacobian points the engine computes with. -/
namespace Sys2Proof

/-- A 32-bit bus word (20 R80). -/
abbrev Word := BitVec 32

/-- A byte (00 R12). -/
abbrev Byte := BitVec 8

/-- The parameter W of the block (00 R8): a multiple of 32 from 64 to 1024, held as how many 32-bit words a big register has
past the least number, 2. Every value of the type is a legal W. -/
structure Width where
  extra : Fin 31
deriving DecidableEq, Repr

/-- A value of a big-number register in the 32 words of its slot (20 R82). A block of width W uses the low W bits (00 R8,
10 R30); that the others are 0 is part of the machine's invariant. -/
abbrev Big := BitVec 1024

/-- An index into V[0..15] (30 R122). -/
abbrev Reg := Fin 16

/-- An affine point, a pair of integers; (0, 0) is the infinity sentinel (00 R14). -/
structure Affine where
  x : Nat
  y : Nat
deriving DecidableEq, Repr

/-- A Jacobian triple; Z = 0 is the point at infinity (00 R14). -/
structure Jac where
  x : Nat
  y : Nat
  z : Nat
deriving DecidableEq, Repr

end Sys2Proof
end

