-- ==== Sys2Proof/Syntax.lean ====
section
/-! DEFINITION. The 18 commands of the opcode map (30 R126), one constructor a row, operands in the order RD, RA, RB with
the unused fields left out (30 R132), and the pseudo-instructions of 30 R133. A pair or triple operand is named by its
lowest register (30 R124). -/
namespace Sys2Proof

inductive Instr where
  /-- no operation (40 R162) -/
  | nop
  /-- copy a register (40 R163) -/
  | mov (d a : Reg)
  /-- reduce modulo P (40 R164) -/
  | mred (d a : Reg)
  /-- modular addition (40 R165) -/
  | madd (d a b : Reg)
  /-- modular subtraction (40 R166) -/
  | msub (d a b : Reg)
  /-- modular multiplication (40 R167) -/
  | mmul (d a b : Reg)
  /-- modular inverse (40 R168) -/
  | minv (d a : Reg)
  /-- membership of the pair `a` (41 R201) -/
  | pchk (a : Reg)
  /-- affine pair `a` to Jacobian triple `d` (41 R206) -/
  | pjac (d a : Reg)
  /-- Jacobian triple `a` to affine pair `d` (41 R207) -/
  | paff (d a : Reg)
  /-- Jacobian addition of triples (41 R208) -/
  | paddj (d a b : Reg)
  /-- Jacobian doubling of a triple (41 R209) -/
  | pdblj (d a : Reg)
  /-- affine addition of pairs (41 R210) -/
  | padd (d a b : Reg)
  /-- affine doubling of a pair (41 R211) -/
  | pdbl (d a : Reg)
  /-- scalar multiplication of the pair `a` by the register `b` (42 R261) -/
  | smul (d a b : Reg)
  /-- scalar multiplication of the base point by the register `a` (42 R262) -/
  | sbmul (d a : Reg)
  /-- encode the pair `a` into BUF (43 R291) -/
  | penc (a : Reg)
  /-- decode BUF into the pair `d` (43 R292) -/
  | pdec (d : Reg)
deriving DecidableEq, Repr

/-- `MSQR vd, va` (30 R133). -/
abbrev Instr.msqr (d a : Reg) : Instr := .mmul d a a

/-- `MDBL vd, va` (30 R133). -/
abbrev Instr.mdbl (d a : Reg) : Instr := .madd d a a

/-- `MCLR vd, va` (30 R133). -/
abbrev Instr.mclr (d a : Reg) : Instr := .msub d a a

end Sys2Proof
end

