-- ==== Sys2Proof/WellFormed.lean ====
section
/-! DEFINITION. Which terms of Instr a legal word stands for: the range of each operand by its kind (30 R123, R127). -/
namespace Sys2Proof

/-- Kind `s`: one register, 0 to 15. -/
def Reg.isSingle (_ : Reg) : Bool := true

/-- Kind `p`: the base of a pair, 0 to 14. -/
def Reg.isPair (f : Reg) : Bool := decide (f.val ≤ 14)

/-- Kind `t`: the base of a triple, 0 to 13. -/
def Reg.isTriple (f : Reg) : Bool := decide (f.val ≤ 13)

/-- The operand kinds of the opcode map, row by row (30 R126). -/
def Instr.wf : Instr → Bool
  | .nop => true
  | .mov d a => Reg.isSingle d && Reg.isSingle a
  | .mred d a => Reg.isSingle d && Reg.isSingle a
  | .madd d a b => Reg.isSingle d && Reg.isSingle a && Reg.isSingle b
  | .msub d a b => Reg.isSingle d && Reg.isSingle a && Reg.isSingle b
  | .mmul d a b => Reg.isSingle d && Reg.isSingle a && Reg.isSingle b
  | .minv d a => Reg.isSingle d && Reg.isSingle a
  | .pchk a => Reg.isPair a
  | .pjac d a => Reg.isTriple d && Reg.isPair a
  | .paff d a => Reg.isPair d && Reg.isTriple a
  | .paddj d a b => Reg.isTriple d && Reg.isTriple a && Reg.isTriple b
  | .pdblj d a => Reg.isTriple d && Reg.isTriple a
  | .padd d a b => Reg.isPair d && Reg.isPair a && Reg.isPair b
  | .pdbl d a => Reg.isPair d && Reg.isPair a
  | .smul d a b => Reg.isPair d && Reg.isPair a && Reg.isSingle b
  | .sbmul d a => Reg.isPair d && Reg.isSingle a
  | .penc a => Reg.isPair a
  | .pdec d => Reg.isPair d

end Sys2Proof
end

