-- ==== Sys2Proof/Decode.lean ====
section
/-! DEFINITION. From a command word to an instruction, or to the reason it is illegal (30 R121 to R129), and back. The
decoder is total on the 2^32 words. -/
namespace Sys2Proof

/-- Why a word is illegal (30 R127). Every reason completes with the one error ILLEGAL (60 R322). -/
inductive Illegal where
  /-- `w[31:18]` is not 0 -/
  | reservedBits
  /-- `w[5:0]` is no opcode of the map -/
  | reservedOpcode
  /-- a field of kind `-` is not 0 -/
  | unusedField
  /-- a pair base of 15 -/
  | pairRange
  /-- a triple base of 14 or 15 -/
  | tripleRange
deriving DecidableEq, Repr

/-- The four operand kinds (30 R123). -/
inductive Kind where
  | unused
  | single
  | pair
  | triple
deriving DecidableEq, Repr

/-- Is the field's value legal for its kind (30 R123)? The reason why not, if not. -/
def Kind.problem : Kind → Reg → Option Illegal
  | .unused, f => if f = 0 then none else some .unusedField
  | .single, _ => none
  | .pair, f => if f.val > 14 then some .pairRange else none
  | .triple, f => if f.val > 13 then some .tripleRange else none

/-- The 4-bit register field that starts at bit `lo` (30 R121, R122). -/
def regField (w : Word) (lo : Nat) : Reg := ⟨(w.extractLsb' lo 4).toNat, (w.extractLsb' lo 4).isLt⟩

/-- A row of the opcode map: the kinds of RD, RA and RB, and the instruction the fields make. -/
structure Row where
  rd : Kind
  ra : Kind
  rb : Kind

/-- The opcode map (30 R126), with the instruction each row makes of its fields d, a, b. -/
def opcodeRow (opc : Nat) (d a b : Reg) : Option (Row × Instr) :=
  match opc with
  | 0x00 => some (⟨.unused, .unused, .unused⟩, .nop)
  | 0x01 => some (⟨.single, .single, .unused⟩, .mov d a)
  | 0x02 => some (⟨.single, .single, .unused⟩, .mred d a)
  | 0x03 => some (⟨.single, .single, .single⟩, .madd d a b)
  | 0x04 => some (⟨.single, .single, .single⟩, .msub d a b)
  | 0x05 => some (⟨.single, .single, .single⟩, .mmul d a b)
  | 0x06 => some (⟨.single, .single, .unused⟩, .minv d a)
  | 0x10 => some (⟨.unused, .pair, .unused⟩, .pchk a)
  | 0x11 => some (⟨.triple, .pair, .unused⟩, .pjac d a)
  | 0x12 => some (⟨.pair, .triple, .unused⟩, .paff d a)
  | 0x13 => some (⟨.triple, .triple, .triple⟩, .paddj d a b)
  | 0x14 => some (⟨.triple, .triple, .unused⟩, .pdblj d a)
  | 0x15 => some (⟨.pair, .pair, .pair⟩, .padd d a b)
  | 0x16 => some (⟨.pair, .pair, .unused⟩, .pdbl d a)
  | 0x18 => some (⟨.pair, .pair, .single⟩, .smul d a b)
  | 0x19 => some (⟨.pair, .single, .unused⟩, .sbmul d a)
  | 0x1C => some (⟨.unused, .pair, .unused⟩, .penc a)
  | 0x1D => some (⟨.pair, .unused, .unused⟩, .pdec d)
  | _ => none

/-- The first problem of the three fields, in the order RD, RA, RB (30 R128). -/
def Row.problem (r : Row) (d a b : Reg) : Option Illegal :=
  ((r.rd.problem d).or (r.ra.problem a)).or (r.rb.problem b)

/-- The instruction, unless there is a problem with its fields. -/
def unlessProblem (p : Option Illegal) (i : Instr) : Except Illegal Instr :=
  match p with
  | some e => .error e
  | none => .ok i

/-- The decoding procedure (30 R128). -/
def decode (w : Word) : Except Illegal Instr :=
  if w.extractLsb' 18 14 ≠ 0 then .error .reservedBits
  else
    let d := regField w 6
    let a := regField w 10
    let b := regField w 14
    match opcodeRow (w.extractLsb' 0 6).toNat d a b with
    | none => .error .reservedOpcode
    | some (row, i) => unlessProblem (row.problem d a b) i

/-- The instruction the decoder reads from a command whose bits are `w`, numbered as the opcode table numbers them: a
command is the one word written to CMD, and no bit lies above the table's. -/
def decodeTableWord (nbits w : Nat) : Option Instr :=
  if w % 2 ^ nbits < 2 ^ 32 then (decode (BitVec.ofNat 32 (w % 2 ^ nbits))).toOption else none

/-- A command word put together from its fields, bit 31 first: `00000000000000 bbbb aaaa dddd oooooo` (30 R121). -/
def assemble (opc : BitVec 6) (d a b : Reg) : Word :=
  0#14 ++ BitVec.ofFin (w := 4) b ++ BitVec.ofFin (w := 4) a ++ BitVec.ofFin (w := 4) d ++ opc

/-- The OPC of each instruction (30 R126). -/
def Instr.opcode : Instr → BitVec 6
  | .nop => 0x00
  | .mov _ _ => 0x01
  | .mred _ _ => 0x02
  | .madd _ _ _ => 0x03
  | .msub _ _ _ => 0x04
  | .mmul _ _ _ => 0x05
  | .minv _ _ => 0x06
  | .pchk _ => 0x10
  | .pjac _ _ => 0x11
  | .paff _ _ => 0x12
  | .paddj _ _ _ => 0x13
  | .pdblj _ _ => 0x14
  | .padd _ _ _ => 0x15
  | .pdbl _ _ => 0x16
  | .smul _ _ _ => 0x18
  | .sbmul _ _ => 0x19
  | .penc _ => 0x1C
  | .pdec _ => 0x1D

/-- The word of an instruction; an unused field is 0 (30 R132). -/
def encode (i : Instr) : Word :=
  match i with
  | .nop => assemble i.opcode 0 0 0
  | .mov d a => assemble i.opcode d a 0
  | .mred d a => assemble i.opcode d a 0
  | .madd d a b => assemble i.opcode d a b
  | .msub d a b => assemble i.opcode d a b
  | .mmul d a b => assemble i.opcode d a b
  | .minv d a => assemble i.opcode d a 0
  | .pchk a => assemble i.opcode 0 a 0
  | .pjac d a => assemble i.opcode d a 0
  | .paff d a => assemble i.opcode d a 0
  | .paddj d a b => assemble i.opcode d a b
  | .pdblj d a => assemble i.opcode d a 0
  | .padd d a b => assemble i.opcode d a b
  | .pdbl d a => assemble i.opcode d a 0
  | .smul d a b => assemble i.opcode d a b
  | .sbmul d a => assemble i.opcode d a 0
  | .penc a => assemble i.opcode 0 a 0
  | .pdec d => assemble i.opcode d 0 0

end Sys2Proof
end

