-- ==== Sys2Proof/Config.lean ====
section
/-! DEFINITION. The parameters of the block (00 R8) as functions of the one that is free, the width W; the constants of 10 R37
and R38; and the free value of the model. W and BASE are fields of State, which nothing changes, and LAT is the schedule
State holds. -/
namespace Sys2Proof.Config

/-- `NW`, the 32-bit words of a big-number register (00 R8). -/
def bigWords (w : Width) : Nat := w.extra.val + 2

/-- `W`, the width in bits of every big-number register (00 R8). -/
def wBits (w : Width) : Nat := 32 * bigWords w

/-- `KBYTES`, the largest scalar length in bytes (00 R8, 42 R264). -/
def scalarBytes (w : Width) : Nat := wBits w / 8

/-- `BUFBYTES`, the size of the codec buffer: 4 · ceil((1 + 2·(W/8)) / 4) (00 R8). -/
def bufBytes (w : Width) : Nat := 4 * ((1 + 2 * (wBits w / 8) + 3) / 4)

/-- `BUFWORDS`, the words of the codec buffer (00 R8). -/
def bufWords (w : Width) : Nat := bufBytes w / 4

/-- The width of EC-CORE 1.0: 18 words, 576 bits (00 R8). -/
def ecCore10 : Width := ⟨16⟩

/-- The size in bytes of the register window (20 R81). -/
def windowBytes : Nat := 0x4000

/-- The only value of the ID register: "EC", version 1.0 (10 R37). -/
def idWord : Word := 0x45430100#32

/-- The only value of the CFG register of a block: NV = 16 in [23:16], W in [15:0] (10 R38). -/
def cfgWord (w : Width) : Word := 0#8 ++ 16#8 ++ BitVec.ofNat 16 (wBits w)

/-- The byte a host read returns for a BUF byte that holds no value: any value (93 U2), a fresh one for each draw. Nothing
constrains it (DESIGN CHOICE, log 3: safe). -/
opaque freeByte : Nat → Byte

end Sys2Proof.Config
end

