-- ==== Sys2Proof/Machine/State.lean ====
section
/-! DEFINITION. The state of EC-CORE (10 R30 to R56) with the host's side of the bus beside it, the reasons a step can stop,
and the state after power-on reset (70 R380). All of it is plain data. -/
namespace Sys2Proof.Machine

/-- Why a run stops with a fault. -/
inductive Fault where
  /-- Raised by PDEC when it reads BUF byte `index` and that byte holds no value (10 R48, 60 R340 item 1, 93 U1). Safe: the
  hardware would go on with an unspecified byte. -/
  | bufByteUnwritten (index : Nat)
deriving DecidableEq, Repr

/-- Why the model has no meaning for a step. -/
inductive Refusal where
  /-- Answered by an arm of exec whose instruction has no meaning yet; no arm of this model does. Safe. -/
  | notModelled (mnemonic : String)
  /-- Answered by a host access of `bytes` bytes, not 4, inside the window (20 R92, 60 R340 item 2, 93 U3). Safe: the spec
  does not define it. -/
  | accessWidth (bytes : Nat)
deriving DecidableEq, Repr

/-- The error codes that STATUS.ERR can hold (60 R321); codes 6 to 15 are never written. -/
inductive Err where
  | ok
  | illegal
  | badParam
  | notInvertible
  | range
  | badScalarLen
deriving DecidableEq, Repr

/-- The stored fields of STATUS (10 R41). STATUS.BUSY is the engine's phase and is not stored again. -/
structure Status where
  err : Err
  busywr : Bool
  res : Bool
  done : Bool
deriving DecidableEq, Repr

/-- The parameter registers (10 R34). -/
structure Params where
  p : Big
  n : Big
  b : Big
  gx : Big
  gy : Big
deriving DecidableEq, Repr

/-- The pending outcome of an accepted command (10 R52): what its completion will write (60 R327). -/
structure Pending where
  /-- the error code -/
  err : Err
  /-- the boolean result -/
  res : Bool
  /-- the V registers it writes -/
  vWrites : List (Reg × Big)
  /-- the bytes it writes to BUF from byte 0 on (PENC) -/
  buf : List Byte
  /-- the CODEC_LEN it writes (PENC) -/
  codecLen : Option (BitVec 16)
deriving DecidableEq, Repr

/-- The engine's phase (10 R51), with the pending outcome while BUSY. -/
inductive Engine where
  | idle
  | busy (pending : Pending)
deriving DecidableEq, Repr

/-- What the world outside the block does next: a host access of `size` bytes at a bus address (20 R80, R81), a turn of the
engine, or a power-on reset. -/
inductive BusEvent where
  | read (address size : Nat)
  | write (address size : Nat) (data : Word)
  | engineTurn
  | powerOn
deriving DecidableEq, Repr

/-- Byte memory as (address, byte) pairs, addresses strictly rising; here the codec buffer, byte i at address i. -/
abbrev Memory := List Host.Cell

structure State where
  /-- V[0..15] (10 R30) -/
  v : Vector Big 16
  /-- PRM.P, N, B, GX, GY (10 R34) -/
  prm : Params
  /-- BUF; an unlisted byte holds no value (10 R48) -/
  buf : Memory
  /-- CMD, the last accepted word (10 R40) -/
  cmd : Word
  /-- STATUS less BUSY (10 R41) -/
  status : Status
  /-- IRQEN.DONE_IE (10 R43) -/
  doneIe : Bool
  /-- BITSIZE (10 R44) -/
  bitsize : BitVec 16
  /-- KLEN (10 R45) -/
  klen : BitVec 8
  /-- CODEC_LEN (10 R46) -/
  codecLen : BitVec 16
  /-- phase and pending outcome (10 R51, R52) -/
  engine : Engine
  /-- the parameter W (00 R8; log 7) -/
  width : Width
  /-- the model's own: the open parameter BASE, the bus address of the window (00 R8; DESIGN CHOICE, log 6: safe) -/
  base : Nat
  /-- the model's own: the schedule of what happens at the bus, oldest first (10 R50, 20 R94; DESIGN CHOICE,
  log 4: safe) -/
  inputs : List BusEvent
  /-- the model's own: the word the last host read returned (DESIGN CHOICE, log 9: safe) -/
  rdata : Option Word
  /-- the model's own: free bytes drawn so far (DESIGN CHOICE, log 3: safe) -/
  draws : Nat
deriving DecidableEq, Repr

/-- A block of width w at bus address base after power-on reset (70 R380). V and PRM are unspecified there and hold 0
here (DESIGN CHOICE, log 1: unsafe). -/
def State.resetAt (w : Width) (base : Nat) : State where
  v := Vector.replicate 16 0#1024
  prm := ⟨0#1024, 0#1024, 0#1024, 0#1024, 0#1024⟩
  buf := []
  cmd := 0#32
  status := ⟨.ok, false, false, false⟩
  doneIe := false
  bitsize := 0#16
  klen := 0#8
  codecLen := 0#16
  engine := .idle
  width := w
  base := base
  inputs := []
  rdata := none
  draws := 0

/-- EC-CORE 1.0 after power-on reset: W = 576 (00 R8), the window at bus address 0 (DESIGN CHOICE, log 6: safe). -/
def State.reset : State := State.resetAt Config.ecCore10 0

end Sys2Proof.Machine
end

