-- ==== Sys2Proof/Machine/Ops.lean ====
section
/-! DEFINITION. The named operations over the registers and BUF: words of a big number, bytes of the buffer, writes of V
registers, and the life of a command: acceptance, error, completion, loss, soft reset. -/
namespace Sys2Proof.Machine

/-! ### BUF as memory -/

/-- What an unlisted byte reads as: it holds no value (10 R48, 70 R380; DESIGN CHOICE, log 2: safe). -/
def Memory.unlisted (_ : Nat) : Option Byte := none

/-- Byte `a`, if it holds a value. -/
def Memory.read (m : Memory) (a : Nat) : Option Byte :=
  match m with
  | [] => Memory.unlisted a
  | (k, b) :: m => if k = a then some b else Memory.read m a

/-- Byte `a` replaced by `b`; the addresses stay rising. -/
def Memory.write (m : Memory) (a : Nat) (b : Byte) : Memory :=
  match m with
  | [] => [(a, b)]
  | (k, c) :: m =>
    if a < k then (a, b) :: (k, c) :: m
    else if a = k then (a, b) :: m
    else (k, c) :: Memory.write m a b

/-- The bytes written one after the other from address `a` on. -/
def Memory.writeBytes (m : Memory) (a : Nat) (bs : List Byte) : Memory :=
  match bs with
  | [] => m
  | b :: bs => Memory.writeBytes (Memory.write m a b) (a + 1) bs

/-- The `n` bytes from address `a` on, or the first of them that holds no value. -/
def Memory.readBytes (m : Memory) (a n : Nat) : Except Nat (List Byte) :=
  match n with
  | 0 => .ok []
  | n + 1 =>
    match Memory.read m a with
    | none => .error a
    | some b =>
      match Memory.readBytes m (a + 1) n with
      | .error e => .error e
      | .ok bs => .ok (b :: bs)

/-- The canonical form: addresses strictly rising and below `size`, the size of the buffer. -/
abbrev Memory.wf (size : Nat) (m : Memory) : Prop :=
  m.Pairwise (fun c d => c.1 < d.1) ∧ ∀ c ∈ m, c.1 < size

/-! ### Words and bytes -/

/-- Word j of a big number, bits [32j+31:32j] (20 R83). -/
def bigWord (x : Big) (j : Nat) : Word := x.extractLsb' (32 * j) 32

/-- A big number with word j replaced and the other words kept (20 R83). -/
def setBigWord (x : Big) (j : Nat) (w : Word) : Big :=
  (x &&& ~~~(BitVec.setWidth 1024 (BitVec.allOnes 32) <<< (32 * j))) ||| (BitVec.setWidth 1024 w <<< (32 * j))

/-- Byte lane k of a bus word, bits [8k+7:8k] (20 R86). -/
def byteLane (w : Word) (k : Nat) : Byte := w.extractLsb' (8 * k) 8

/-- The word whose byte lanes are b0 (bits [7:0]) to b3 (20 R86). -/
def wordOfLanes (b0 b1 b2 b3 : Byte) : Word := b3 ++ b2 ++ b1 ++ b0

/-- Byte j of an integer, bits [8j+7:8j] (43 R291). -/
def natByte (x j : Nat) : Byte := BitVec.ofNat 8 (x / 256 ^ j)

/-- `bytes_BE(x, n)`: the n bytes of x, most significant first (00 R12). -/
def bytesBE (x n : Nat) : List Byte := (List.range n).map fun i => natByte x (n - 1 - i)

/-- `BE(bytes)`: the first byte is the most significant (00 R12). -/
def natOfBE (bs : List Byte) : Nat := bs.foldl (fun acc b => acc * 256 + b.toNat) 0

/-! ### V and parameter registers -/

/-- The register k places above r; a legal pair or triple base never wraps (30 R123, R124). -/
def regPlus (r : Reg) (k : Nat) : Reg := ⟨(r.val + k) % 16, Nat.mod_lt _ (by decide)⟩

/-- The content of V[r]. -/
def readV (s : State) (r : Reg) : Big := s.v.get r

/-- V with register r replaced. -/
def setV (v : Vector Big 16) (r : Reg) (x : Big) : Vector Big 16 := v.set r.val x r.isLt

/-- V with a list of register writes applied (60 R327). -/
def writeRegs (v : Vector Big 16) (ws : List (Reg × Big)) : Vector Big 16 :=
  match ws with
  | [] => v
  | (r, x) :: ws => writeRegs (setV v r x) ws

/-- The five parameter registers by name (10 R34). -/
inductive PrmReg where
  | p
  | n
  | b
  | gx
  | gy
deriving DecidableEq, Repr

/-- The content of a parameter register. -/
def readPrm (ps : Params) : PrmReg → Big
  | .p => ps.p
  | .n => ps.n
  | .b => ps.b
  | .gx => ps.gx
  | .gy => ps.gy

/-- The parameters with one register replaced. -/
def setPrm (ps : Params) (r : PrmReg) (x : Big) : Params :=
  match r with
  | .p => { ps with p := x }
  | .n => { ps with n := x }
  | .b => { ps with b := x }
  | .gx => { ps with gx := x }
  | .gy => { ps with gy := x }

/-! ### The life of a command -/

/-- Is the engine BUSY (10 R51)? This is STATUS.BUSY (10 R41). -/
def isBusy (s : State) : Bool :=
  match s.engine with
  | .idle => false
  | .busy _ => true

/-- `raise Error(code)`: the ONE way a command meets an error. It ends with the code and none of its writes takes effect
(00 R13, 60 R320). -/
def raiseError (e : Err) : Pending := ⟨e, false, [], [], none⟩

/-- An outcome that writes V registers only. -/
def writesV (ws : List (Reg × Big)) : Pending := ⟨.ok, false, ws, [], none⟩

/-- An outcome that writes STATUS.RES only. -/
def writesRes (b : Bool) : Pending := ⟨.ok, b, [], [], none⟩

/-- Acceptance of word `c` with its outcome, one atomic step (60 R326). STATUS.BUSYWR is unchanged. -/
def accept (c : Word) (p : Pending) (s : State) : State :=
  { s with
    cmd := c
    status := { s.status with done := false, res := false, err := .ok }
    engine := .busy p }

/-- Completion of a pending command, one atomic step (60 R327). On an error only STATUS changes and RES is 0 (60 R320;
DEDUCED, log 12: unsafe). -/
def complete (p : Pending) (s : State) : State :=
  if p.err = .ok then
    { s with
      v := writeRegs s.v p.vWrites
      buf := Memory.writeBytes s.buf 0 p.buf
      codecLen := p.codecLen.getD s.codecLen
      status := { s.status with res := p.res, err := .ok, done := true }
      engine := .idle }
  else
    { s with
      status := { s.status with res := false, err := p.err, done := true }
      engine := .idle }

/-- The engine's only step: to complete the command it holds (10 R50). An IDLE engine does nothing. -/
def engineStep (s : State) : State :=
  match s.engine with
  | .idle => s
  | .busy p => complete p s

/-- A write that is lost because the engine is BUSY: it only sets STATUS.BUSYWR (20 R87). -/
def lostWrite (s : State) : State := { s with status := { s.status with busywr := true } }

/-- Soft reset (70 R381): the command in progress is aborted, the CSRs are cleared, V, PRM and BUF keep their values. -/
def softReset (s : State) : State :=
  { s with
    engine := .idle
    cmd := 0#32
    status := ⟨.ok, false, false, false⟩
    doneIe := false
    bitsize := 0#16
    klen := 0#8
    codecLen := 0#16 }

/-- Power-on reset as an event (70 R380). The block keeps its parameters, and the world outside keeps its place: the rest of
the schedule, the last word read and the count of draws (DESIGN CHOICE, log 15: safe). -/
def powerOnReset (s : State) : State :=
  { State.resetAt s.width s.base with inputs := s.inputs, rdata := s.rdata, draws := s.draws }

/-- An instruction is issued: a legal one is accepted with the outcome its rule gives of the state at this instant (10 R52,
60 R326), or the run stops with the fault its reads meet; a term whose word is illegal is accepted and reports ILLEGAL,
having read nothing (30 R127, 60 R322; DEDUCED, log 11: safe). -/
def issueOrFault (i : Instr) (r : Except Fault Pending) (s : State) : Host.Outcome State Fault Refusal :=
  if i.wf then
    match r with
    | .ok p => .next (accept (encode i) p s)
    | .error f => .fault f
  else .next (accept (encode i) (raiseError .illegal) s)

/-- `issueOrFault` for the instructions whose reads never fault. -/
def issue (i : Instr) (p : Pending) (s : State) : Host.Outcome State Fault Refusal := issueOrFault i (.ok p) s

end Sys2Proof.Machine
end

