-- ==== Sys2Proof/Machine/Operands.lean ====
section
/-! DEFINITION. The operand forms (30 R123, R124): a single register, a pair, a triple, as sources and as destinations; the
implicit operands of 30 R125; and the checks that come before a command computes (60 R323, R325). -/
namespace Sys2Proof.Machine

/-- An `s` source: the integer V[r] holds. -/
def single (s : State) (r : Reg) : Nat := (readV s r).toNat

/-- A `p` source: (x, y) = (V[r], V[r+1]). -/
def affineAt (s : State) (r : Reg) : Affine := ⟨single s r, single s (regPlus r 1)⟩

/-- A `t` source: (X, Y, Z) = (V[r], V[r+1], V[r+2]). -/
def jacAt (s : State) (r : Reg) : Jac := ⟨single s r, single s (regPlus r 1), single s (regPlus r 2)⟩

/-- An integer as a register's content; every value a command writes fits (10 R33). -/
def toBig (x : Nat) : Big := BitVec.ofNat 1024 x

/-- An `s` destination. -/
def toSingle (d : Reg) (x : Nat) : List (Reg × Big) := [(d, toBig x)]

/-- A `p` destination: x to V[d], y to V[d+1]. -/
def toPair (d : Reg) (q : Affine) : List (Reg × Big) := [(d, toBig q.x), (regPlus d 1, toBig q.y)]

/-- A `t` destination: X to V[d], Y to V[d+1], Z to V[d+2]. -/
def toTriple (d : Reg) (q : Jac) : List (Reg × Big) :=
  [(d, toBig q.x), (regPlus d 1, toBig q.y), (regPlus d 2, toBig q.z)]

/-- `PRM.P` as an integer. -/
def modulus (s : State) : Nat := s.prm.p.toNat

/-- The base point (PRM.GX, PRM.GY). -/
def basePoint (s : State) : Affine := ⟨s.prm.gx.toNat, s.prm.gy.toNat⟩

/-- `byteLen = (BITSIZE + 7) div 8` (43 R290). -/
def byteLen (s : State) : Nat := (s.bitsize.toNat + 7) / 8

/-- The parameter check (60 R323): P odd, P ≥ 3, 1 ≤ BITSIZE ≤ W, P < 2^BITSIZE. -/
def paramsOk (s : State) : Bool :=
  decide (1 ≤ s.bitsize.toNat) && decide (s.bitsize.toNat ≤ Config.wBits s.width) && decide (modulus s % 2 = 1)
    && decide (3 ≤ modulus s) && decide (modulus s < 2 ^ s.bitsize.toNat)

/-- A command that checks parameters: BAD_PARAM, or its outcome over the modulus (60 R323, R325 place 2). -/
def withParams (s : State) (k : Nat → Pending) : Pending :=
  if paramsOk s then k (modulus s) else raiseError .badParam

/-- SMUL's and SBMUL's check of KLEN, after the parameter check and before any operand is read (60 R324, R325 place 3). -/
def withScalarLen (s : State) (k : Nat → Pending) : Pending :=
  if s.klen.toNat ≤ Config.scalarBytes s.width then k s.klen.toNat else raiseError .badScalarLen

/-- A result that needed an inverse: NOT_INVERTIBLE when there was none (60 R324, R325 place 4). -/
def orNotInvertible {α : Type} (r : Option α) (k : α → Pending) : Pending :=
  match r with
  | none => raiseError .notInvertible
  | some x => k x

end Sys2Proof.Machine
end

