-- ==== Sys2Proof/Machine/Codec.lean ====
section
/-! DEFINITION. The point codec (43 R290 to R294): PENC and PDEC. -/
namespace Sys2Proof.Machine

/-- The encoding of a point: the tag 4, then x and y as n big-endian bytes each (43 R291). -/
def encodePoint (n : Nat) (q : Affine) : List Byte := 4#8 :: (bytesBE q.x n ++ bytesBE q.y n)

/-- What PENC does: RANGE when a coordinate is too wide, else the bytes and their count (43 R291). -/
def pencOutcome (s : State) (q : Affine) : Pending :=
  if 256 ^ byteLen s ≤ q.x ∨ 256 ^ byteLen s ≤ q.y then raiseError .range
  else ⟨.ok, false, [], encodePoint (byteLen s) q, some (BitVec.ofNat 16 (1 + 2 * byteLen s))⟩

/-- PENC (43 R291). -/
def execPenc (a : Reg) (s : State) : Host.Outcome State Fault Refusal :=
  issue (.penc a) (withParams s fun _ => pencOutcome s (affineAt s a)) s

/-- PDEC's reads of BUF and its outcome (43 R292): the length test reads only CODEC_LEN, the tag test only byte 0; a byte
that is read and holds no value is a fault (10 R48). -/
def pdecOutcome (d : Reg) (s : State) : Except Fault Pending :=
  let n := byteLen s
  if s.codecLen.toNat ≠ 1 + 2 * n then .ok (writesRes false)
  else
    match Memory.read s.buf 0 with
    | none => .error (.bufByteUnwritten 0)
    | some tag =>
      if tag ≠ 4#8 then .ok (writesRes false)
      else
        match Memory.readBytes s.buf 1 (2 * n) with
        | .error i => .error (.bufByteUnwritten i)
        | .ok bs =>
          .ok { writesRes true with vWrites := toPair d ⟨natOfBE (bs.take n), natOfBE (bs.drop n)⟩ }

/-- PDEC (43 R292). -/
def execPdec (d : Reg) (s : State) : Host.Outcome State Fault Refusal :=
  issueOrFault (.pdec d) (if paramsOk s then pdecOutcome d s else .ok (raiseError .badParam)) s

end Sys2Proof.Machine
end

