-- ==== Sys2Proof/Machine/Residue.lean ====
section
/-! DEFINITION. Arithmetic modulo P on unbounded integers (00 R11, 40 R160, R161, R168): the Euclidean residue and the exact
inverse. Which method hardware uses is not observable (40 R160). -/
namespace Sys2Proof.Machine

/-- `x mod m`, the Euclidean residue, also for negative x (00 R11). -/
def modP (m : Nat) (x : Int) : Nat := (x % (m : Int)).toNat

/-- The extended Euclidean algorithm on remainders r0, r1 and their coefficients t0, t1; the first argument bounds the
number of divisions. -/
def euclid : Nat → Nat → Nat → Int → Int → Int
  | 0, _, _, t0, _ => t0
  | n + 1, r0, r1, t0, t1 =>
    if r1 = 0 then t0 else euclid n r1 (r0 % r1) t1 (t0 - ((r0 / r1 : Nat) : Int) * t1)

/-- The inverse of `a` mod m, the unique y in [0, m) with a·y ≡ 1, when gcd(a mod m, m) = 1; none when it is not (40 R168).
The remainders fall from below m, so m divisions suffice (DEDUCED, log 13: unsafe). -/
def inverse (m a : Nat) : Option Nat :=
  let r := a % m
  if Nat.gcd r m = 1 then some (modP m (euclid m m r 0 1)) else none

end Sys2Proof.Machine
end

