-- ==== Sys2Proof/Machine/FieldArith.lean ====
section
/-! DEFINITION. The field commands (40 R162 to R168): NOP, MOV, MRED, MADD, MSUB, MMUL, MINV. -/
namespace Sys2Proof.Machine

/-- NOP (40 R162): no parameter check, no write. -/
def execNop (s : State) : Host.Outcome State Fault Refusal := issue .nop (writesV []) s

/-- MOV (40 R163): the value is copied unchanged; no parameter check. -/
def execMov (d a : Reg) (s : State) : Host.Outcome State Fault Refusal :=
  issue (.mov d a) (writesV [(d, readV s a)]) s

/-- MRED (40 R164). -/
def execMred (d a : Reg) (s : State) : Host.Outcome State Fault Refusal :=
  issue (.mred d a) (withParams s fun P => writesV (toSingle d (modP P (single s a)))) s

/-- MADD (40 R165). -/
def execMadd (d a b : Reg) (s : State) : Host.Outcome State Fault Refusal :=
  issue (.madd d a b) (withParams s fun P => writesV (toSingle d (modP P ((single s a : Int) + single s b)))) s

/-- MSUB (40 R166): a negative difference gives its Euclidean residue. -/
def execMsub (d a b : Reg) (s : State) : Host.Outcome State Fault Refusal :=
  issue (.msub d a b) (withParams s fun P => writesV (toSingle d (modP P ((single s a : Int) - single s b)))) s

/-- MMUL (40 R167): the plain residue of the exact product. -/
def execMmul (d a b : Reg) (s : State) : Host.Outcome State Fault Refusal :=
  issue (.mmul d a b) (withParams s fun P => writesV (toSingle d (modP P ((single s a : Int) * single s b)))) s

/-- MINV (40 R168): the exact inverse, or NOT_INVERTIBLE. -/
def execMinv (d a : Reg) (s : State) : Host.Outcome State Fault Refusal :=
  issue (.minv d a)
    (withParams s fun P => orNotInvertible (inverse P (single s a)) fun y => writesV (toSingle d y)) s

end Sys2Proof.Machine
end

