-- ==== Sys2Proof/Machine/Curve.lean ====
section
/-! DEFINITION. The engine's functions for y² = x³ − 3x + B over the integers mod P (41 R200 to R205) and the scalar
multiplier's loop (42 R260). Sentinel and Z = 0 tests compare the integers held; xEqual, yEqual and the membership test
compare residues (41 R213). -/
namespace Sys2Proof.Machine

/-- `IsOnCurve(x, y)` (41 R201). -/
def isOnCurve (P B : Nat) (q : Affine) : Bool :=
  decide (q.y * q.y % P = modP P ((q.x : Int) * q.x * q.x - 3 * q.x + B))

/-- `zForAffine(x, y)` (41 R202). -/
def zForAffine (q : Affine) : Nat := if q.x = 0 ∧ q.y = 0 then 0 else 1

/-- An affine point with the Z coordinate zForAffine gives it. -/
def jacOfAffine (q : Affine) : Jac := ⟨q.x, q.y, zForAffine q⟩

/-- `affineFromJacobian(X, Y, Z)` (41 R203); none is NOT_INVERTIBLE. -/
def affineFromJacobian (P : Nat) (j : Jac) : Option Affine :=
  if j.z = 0 then some ⟨0, 0⟩
  else
    match inverse P j.z with
    | none => none
    | some zi => some ⟨j.x * zi * zi % P, j.y * zi * zi * zi % P⟩

/-- `doubleJacobian(X, Y, Z)`, dbl-2001-b with a = −3 (41 R205). -/
def doubleJacobian (P : Nat) (j : Jac) : Jac :=
  let δ : Int := modP P (j.z * j.z)
  let γ : Int := modP P (j.y * j.y)
  let α : Int := 3 * (j.x - δ) * (j.x + δ)
  let β : Int := j.x * γ
  let x3 := modP P (α ^ 2 - 8 * β)
  let z3 := modP P (((j.y : Int) + j.z) ^ 2 - γ - δ)
  let y3 := modP P (α * (4 * β - x3) - 8 * γ ^ 2)
  ⟨x3, y3, z3⟩

/-- `addJacobian`, add-2007-bl with the source's early returns, in order (41 R204, 90 C3). -/
def addJacobian (P : Nat) (j k : Jac) : Jac :=
  if j.z = 0 then k
  else if k.z = 0 then j
  else
    let z1z1 : Int := modP P (j.z * j.z)
    let z2z2 : Int := modP P (k.z * k.z)
    let u1 : Int := modP P (j.x * z2z2)
    let u2 : Int := modP P (k.x * z1z1)
    let s1 : Int := modP P (j.y * k.z * z2z2)
    let s2 : Int := modP P (k.y * j.z * z1z1)
    if u1 = u2 ∧ s1 = s2 then doubleJacobian P j
    else
      let h := u2 - u1
      let i := (2 * h) ^ 2
      let jj := h * i
      let r := 2 * (s2 - s1)
      let vv := u1 * i
      let x3 := modP P (r ^ 2 - jj - 2 * vv)
      let y3 := modP P (r * (vv - x3) - 2 * s1 * jj)
      let z3 := modP P ((((j.z : Int) + k.z) ^ 2 - z1z1 - z2z2) * h)
      ⟨x3, y3, z3⟩

/-- The affine `Add(p1, p2)` (41 R210). -/
def addAffine (P : Nat) (q r : Affine) : Option Affine :=
  affineFromJacobian P (addJacobian P (jacOfAffine q) (jacOfAffine r))

/-- The affine `Double(p)` (41 R211). -/
def doubleAffine (P : Nat) (q : Affine) : Option Affine :=
  affineFromJacobian P (doubleJacobian P (jacOfAffine q))

/-- The double-and-add loop over bits j−1 down to 0 of k, the operand first and its Z fixed at 1 (42 R260, 90 C10). -/
def scalarLoop (P : Nat) (q : Affine) (k : Nat) : Nat → Jac → Jac
  | 0, acc => acc
  | j + 1, acc =>
    let dbl := doubleJacobian P acc
    scalarLoop P q k j (if k.testBit j then addJacobian P ⟨q.x, q.y, 1⟩ dbl else dbl)

/-- `ScalarMult(bx, by, k, KLEN)`: the low 8·KLEN bits of k, most significant first, from the identity (42 R260). -/
def scalarMult (P : Nat) (q : Affine) (k klen : Nat) : Option Affine :=
  affineFromJacobian P (scalarLoop P q k (8 * klen) ⟨0, 0, 0⟩)

end Sys2Proof.Machine
end

