-- ==== Sys2Proof/Machine/PointArith.lean ====
section
/-! DEFINITION. The point commands (41 R201, R206 to R211): PCHK, PJAC, PAFF, PADDJ, PDBLJ, PADD, PDBL. -/
namespace Sys2Proof.Machine

/-- PCHK (41 R201): RES is membership; B is used as held. -/
def execPchk (a : Reg) (s : State) : Host.Outcome State Fault Refusal :=
  issue (.pchk a) (withParams s fun P => writesRes (isOnCurve P s.prm.b.toNat (affineAt s a))) s

/-- PJAC (41 R206): x and y are copied unchanged. -/
def execPjac (d a : Reg) (s : State) : Host.Outcome State Fault Refusal :=
  issue (.pjac d a) (withParams s fun _ => writesV (toTriple d (jacOfAffine (affineAt s a)))) s

/-- PAFF (41 R207). -/
def execPaff (d a : Reg) (s : State) : Host.Outcome State Fault Refusal :=
  issue (.paff d a)
    (withParams s fun P => orNotInvertible (affineFromJacobian P (jacAt s a)) fun q => writesV (toPair d q)) s

/-- PADDJ (41 R208). -/
def execPaddj (d a b : Reg) (s : State) : Host.Outcome State Fault Refusal :=
  issue (.paddj d a b) (withParams s fun P => writesV (toTriple d (addJacobian P (jacAt s a) (jacAt s b)))) s

/-- PDBLJ (41 R209). -/
def execPdblj (d a : Reg) (s : State) : Host.Outcome State Fault Refusal :=
  issue (.pdblj d a) (withParams s fun P => writesV (toTriple d (doubleJacobian P (jacAt s a)))) s

/-- PADD (41 R210). -/
def execPadd (d a b : Reg) (s : State) : Host.Outcome State Fault Refusal :=
  issue (.padd d a b)
    (withParams s fun P =>
      orNotInvertible (addAffine P (affineAt s a) (affineAt s b)) fun q => writesV (toPair d q)) s

/-- PDBL (41 R211). -/
def execPdbl (d a : Reg) (s : State) : Host.Outcome State Fault Refusal :=
  issue (.pdbl d a)
    (withParams s fun P => orNotInvertible (doubleAffine P (affineAt s a)) fun q => writesV (toPair d q)) s

end Sys2Proof.Machine
end

