-- ==== Sys2Proof/Machine/ScalarMult.lean ====
section
/-! DEFINITION. The scalar commands (42 R261, R262): SMUL and SBMUL. -/
namespace Sys2Proof.Machine

/-- SMUL (42 R261). -/
def execSmul (d a b : Reg) (s : State) : Host.Outcome State Fault Refusal :=
  issue (.smul d a b)
    (withParams s fun P => withScalarLen s fun n =>
      orNotInvertible (scalarMult P (affineAt s a) (single s b) n) fun q => writesV (toPair d q)) s

/-- SBMUL (42 R262): SMUL of the base point. -/
def execSbmul (d a : Reg) (s : State) : Host.Outcome State Fault Refusal :=
  issue (.sbmul d a)
    (withParams s fun P => withScalarLen s fun n =>
      orNotInvertible (scalarMult P (basePoint s) (single s a) n) fun q => writesV (toPair d q)) s

end Sys2Proof.Machine
end

