-- ==== Sys2Proof/Machine/Dispatch.lean ====
section
/-! DEFINITION. One arm per instruction: a legal command issued at the CMD register (60 R326). -/
namespace Sys2Proof.Machine

def exec (i : Instr) (s : State) : Host.Outcome State Fault Refusal :=
  match i with
  | .nop => Sys2Proof.Machine.execNop s
  | .mov d a => Sys2Proof.Machine.execMov d a s
  | .mred d a => Sys2Proof.Machine.execMred d a s
  | .madd d a b => Sys2Proof.Machine.execMadd d a b s
  | .msub d a b => Sys2Proof.Machine.execMsub d a b s
  | .mmul d a b => Sys2Proof.Machine.execMmul d a b s
  | .minv d a => Sys2Proof.Machine.execMinv d a s
  | .pchk a => Sys2Proof.Machine.execPchk a s
  | .pjac d a => Sys2Proof.Machine.execPjac d a s
  | .paff d a => Sys2Proof.Machine.execPaff d a s
  | .paddj d a b => Sys2Proof.Machine.execPaddj d a b s
  | .pdblj d a => Sys2Proof.Machine.execPdblj d a s
  | .padd d a b => Sys2Proof.Machine.execPadd d a b s
  | .pdbl d a => Sys2Proof.Machine.execPdbl d a s
  | .smul d a b => Sys2Proof.Machine.execSmul d a b s
  | .sbmul d a => Sys2Proof.Machine.execSbmul d a s
  | .penc a => Sys2Proof.Machine.execPenc a s
  | .pdec d => Sys2Proof.Machine.execPdec d s

end Sys2Proof.Machine
end

