-- ==== Sys2Proof/Machine/Flags.lean ====
section
/-! DEFINITION. The flags: the STATUS word a host reads, what a write to STATUS clears, and the irq output (10 R41, R42,
60 R321, R330). -/
namespace Sys2Proof.Machine

/-- The 4-bit error codes (60 R321). -/
def errCode : Err → BitVec 4
  | .ok => 0#4
  | .illegal => 1#4
  | .badParam => 2#4
  | .notInvertible => 3#4
  | .range => 4#4
  | .badScalarLen => 5#4

/-- STATUS: ERR in [11:8], BUSYWR 3, RES 2, DONE 1, BUSY 0, the rest 0 (10 R41). -/
def statusWord (s : State) : Word :=
  0#20 ++ errCode s.status.err ++ 0#4 ++ BitVec.ofBool s.status.busywr ++ BitVec.ofBool s.status.res
    ++ BitVec.ofBool s.status.done ++ BitVec.ofBool (isBusy s)

/-- A write to STATUS: a 1 in bit 1 clears DONE, a 1 in bit 3 clears BUSYWR, nothing else happens (10 R42). -/
def clearStatus (w : Word) (s : State) : State :=
  { s with
    status := { s.status with
      done := s.status.done && !w.getLsbD 1
      busywr := s.status.busywr && !w.getLsbD 3 } }

/-- The irq output: DONE and DONE_IE (60 R330). -/
def irq (s : State) : Bool := s.status.done && s.doneIe

end Sys2Proof.Machine
end

