-- ==== Sys2Proof/Machine/Bus.lean ====
section
/-! DEFINITION. The register window (20 R80 to R101): which word an address reaches, what a read returns, what a write does,
while IDLE and while BUSY, and the events of the bus. -/
namespace Sys2Proof.Machine

/-- What a word of the window is (20 R82). `j` is the word inside a big register or BUF. -/
inductive Target where
  | id
  | cfg
  | ctrl
  | cmd
  | status
  | irqen
  | bitsize
  | klen
  | codecLen
  | prm (r : PrmReg) (j : Nat)
  | v (r : Reg) (j : Nat)
  | buf (j : Nat)
  | reserved
deriving DecidableEq, Repr

/-- The nine control and status registers, then reserved words (20 R82). -/
def csrTarget (w : Nat) : Target :=
  match w with
  | 0 => .id
  | 1 => .cfg
  | 2 => .ctrl
  | 3 => .cmd
  | 4 => .status
  | 5 => .irqen
  | 6 => .bitsize
  | 7 => .klen
  | 8 => .codecLen
  | _ => .reserved

/-- The parameter register of a 0x80-byte slot, counted from offset 0x100 (20 R82). -/
def prmSlot (n : Nat) : Option PrmReg :=
  match n with
  | 0 => some .p
  | 1 => some .n
  | 2 => some .b
  | 3 => some .gx
  | 4 => some .gy
  | _ => none

/-- The address map of a block of the given width over byte offsets of the window; bits [1:0] of the offset are
ignored (20 R81, R82, R91). -/
def target (width : Width) (off : Nat) : Target :=
  let w := off % 0x4000 / 4
  if w < 0x100 / 4 then csrTarget w
  else if w < 0x1000 / 4 then
    let j := (w - 0x100 / 4) % 32
    match prmSlot ((w - 0x100 / 4) / 32) with
    | some r => if j < Config.bigWords width then .prm r j else .reserved
    | none => .reserved
  else if w < 0x1800 / 4 then
    let j := (w - 0x1000 / 4) % 32
    if j < Config.bigWords width then .v (regPlus 0 ((w - 0x1000 / 4) / 32)) j else .reserved
  else if w < 0x2000 / 4 then .reserved
  else if w - 0x2000 / 4 < Config.bufWords width then .buf (w - 0x2000 / 4)
  else .reserved

/-- The word's byte lane k of BUF word j as a host reads it: a byte that holds no value reads as a free byte (93 U2;
DESIGN CHOICE, log 3: safe). -/
def bufLane (s : State) (j k : Nat) : Byte :=
  (Memory.read s.buf (4 * j + k)).getD (Config.freeByte (s.draws + k))

/-- The word a host read returns. PRM, V and BUF read 0 while BUSY (20 R88); reserved words read 0 (20 R84). -/
def readTarget (t : Target) (s : State) : Word :=
  match t with
  | .id => Config.idWord
  | .cfg => Config.cfgWord s.width
  | .ctrl => 0#32
  | .cmd => s.cmd
  | .status => statusWord s
  | .irqen => BitVec.setWidth 32 (BitVec.ofBool s.doneIe)
  | .bitsize => BitVec.setWidth 32 s.bitsize
  | .klen => BitVec.setWidth 32 s.klen
  | .codecLen => BitVec.setWidth 32 s.codecLen
  | .prm r j => if isBusy s then 0#32 else bigWord (readPrm s.prm r) j
  | .v r j => if isBusy s then 0#32 else bigWord (readV s r) j
  | .buf j =>
    if isBusy s then 0#32 else wordOfLanes (bufLane s j 0) (bufLane s j 1) (bufLane s j 2) (bufLane s j 3)
  | .reserved => 0#32

/-- The free bytes a read may have drawn: one a lane for a word of BUF that is not masked by BUSY. -/
def drawsOf (t : Target) (s : State) : Nat :=
  match t with
  | .buf _ => if isBusy s then 0 else 4
  | _ => 0

/-- A host read: it returns a word and has no other effect on the block (20 R89). -/
def readEffect (t : Target) (s : State) : State :=
  { s with rdata := some (readTarget t s), draws := s.draws + drawsOf t s }

/-- A write that has its effect while IDLE and is lost while BUSY (20 R87). -/
def whenIdle (s s' : State) : State := if isBusy s then lostWrite s else s'

/-- A word written to CMD while IDLE: a legal word is executed; an illegal one is accepted and completes with ILLEGAL
(60 R322, R326). -/
def acceptWord (w : Word) (s : State) : Host.Outcome State Fault Refusal :=
  match decode w with
  | .ok i => exec i s
  | .error _ => .next (accept w (raiseError .illegal) s)

/-- The four bytes of a word written to word j of BUF (20 R86). -/
def writeBufWord (m : Memory) (j : Nat) (x : Word) : Memory :=
  Memory.writeBytes m (4 * j) [byteLane x 0, byteLane x 1, byteLane x 2, byteLane x 3]

/-- What a host write does (10 R37 to R48, 20 R83 to R89). -/
def writeEffect (t : Target) (x : Word) (s : State) : Host.Outcome State Fault Refusal :=
  match t with
  | .id => .next s
  | .cfg => .next s
  | .reserved => .next s
  | .ctrl => .next (if x.getLsbD 0 then softReset s else s)
  | .status => .next (clearStatus x s)
  | .irqen => .next { s with doneIe := x.getLsbD 0 }
  | .cmd => if isBusy s then .next (lostWrite s) else acceptWord x s
  | .bitsize => .next (whenIdle s { s with bitsize := BitVec.setWidth 16 x })
  | .klen => .next (whenIdle s { s with klen := BitVec.setWidth 8 x })
  | .codecLen => .next (whenIdle s { s with codecLen := BitVec.setWidth 16 x })
  | .prm r j => .next (whenIdle s { s with prm := setPrm s.prm r (setBigWord (readPrm s.prm r) j x) })
  | .v r j => .next (whenIdle s { s with v := setV s.v r (setBigWord (readV s r) j x) })
  | .buf j => .next (whenIdle s { s with buf := writeBufWord s.buf j x })

/-- Does a bus address reach the block (20 R81)? -/
def inWindow (base address : Nat) : Bool := decide (base ≤ address) && decide (address < base + Config.windowBytes)

/-- One event of the bus. An access outside the window does not reach the block (20 R81; DEDUCED, log 10: safe); an
access of another width than 4 bytes has no meaning (20 R92; log 18: safe). -/
def busEvent (e : BusEvent) (s : State) : Host.Outcome State Fault Refusal :=
  match e with
  | .engineTurn => .next (engineStep s)
  | .powerOn => .next (powerOnReset s)
  | .read address size =>
    if !inWindow s.base address then .next s
    else if size ≠ 4 then .refused (.accessWidth size)
    else .next (readEffect (target s.width (address - s.base)) s)
  | .write address size x =>
    if !inWindow s.base address then .next s
    else if size ≠ 4 then .refused (.accessWidth size)
    else writeEffect (target s.width (address - s.base)) x s

/-- One step of block and host: the next event of the schedule; when the schedule is empty, the engine's step, so that a
pending command always completes (20 R94, 70 R392; DESIGN CHOICE, log 4: safe). -/
def nextEvent (s : State) : Host.Outcome State Fault Refusal :=
  match s.inputs with
  | [] => .next (engineStep s)
  | e :: rest => busEvent e { s with inputs := rest }

/-- The state in which the next event is the write of word w to CMD and the engine is ready for it (DESIGN CHOICE, log 5:
safe). -/
def issueNext (w : Word) (s : State) : State :=
  { s with engine := .idle, inputs := .write (s.base + 0x00C) 4 w :: s.inputs }

end Sys2Proof.Machine
end

