-- ==== Sys2Proof/Machine/Step.lean ====
section
/-! DEFINITION. One step of the machine, and the state in which a given word is the next instruction. -/
namespace Sys2Proof.Machine

/-- One step: the next event of the bus, or a completion (Machine/Bus.lean). -/
def step (s : State) : Host.Outcome State Fault Refusal := Sys2Proof.Machine.nextEvent s

/-- The instruction whose bits are w stored where `step` takes its next instruction: a write to CMD at the head of the
schedule, the engine IDLE (DESIGN CHOICE, log 5: safe). -/
def State.withFetchWord (s : State) (nbits w : Nat) : State :=
  Sys2Proof.Machine.issueNext (BitVec.ofNat 32 (w % 2 ^ nbits)) s

end Sys2Proof.Machine
end

