-- ==== Sys2Proof/Machine/Assembler.lean ====
section
/-! DEFINITION. The assembler syntax (30 R132, R133): one command a line, text as a list of characters. What the spec's
grammar leaves open (blanks, the range check of a pair or triple base) is DESIGN CHOICE,
log 16: safe. -/
namespace Sys2Proof.Machine

/-- The name of a register, `v0` to `v15`. -/
def regName (r : Reg) : List Char :=
  if r.val < 10 then ['v', Char.ofNat (48 + r.val)] else ['v', '1', Char.ofNat (48 + (r.val - 10))]

/-- A register name read back. -/
def readReg (cs : List Char) : Option Reg := (List.finRange 16).find? fun r => regName r == cs

/-- How many registers an operand kind names (30 R123). -/
def kindSize : Kind → Nat
  | .unused => 0
  | .single => 1
  | .pair => 2
  | .triple => 3

/-- An operand: the base register, or for a pair or triple the range it names (`v4:v5`, `v4:v6`); any other range is an
error. -/
def readOperand (k : Kind) (cs : List Char) : Option Reg :=
  match cs.splitOn ':' with
  | [one] => readReg one
  | [lo, hi] =>
    match readReg lo, readReg hi with
    | some f, some g => if 2 ≤ kindSize k ∧ g.val + 1 = f.val + kindSize k then some f else none
    | _, _ => none
  | _ => none

/-- The operands of a line against the kinds of the mnemonic's used fields, in the order RD, RA, RB. -/
def readOperands : List Kind → List (List Char) → Option (List Reg)
  | [], [] => some []
  | k :: ks, cs :: css =>
    match readOperand k cs, readOperands ks css with
    | some r, some rs => some (r :: rs)
    | _, _ => none
  | _, _ => none

/-- The mnemonics, their used fields, and the instruction those make: the 18 forms of 30 R132 and the three
pseudo-instructions of 30 R133. -/
def mnemonicForm (m : List Char) : Option (List Kind × (List Reg → Option Instr)) :=
  match m with
  | ['N', 'O', 'P'] => some ([], fun | [] => some .nop | _ => none)
  | ['M', 'O', 'V'] => some ([.single, .single], fun | [d, a] => some (.mov d a) | _ => none)
  | ['M', 'R', 'E', 'D'] => some ([.single, .single], fun | [d, a] => some (.mred d a) | _ => none)
  | ['M', 'I', 'N', 'V'] => some ([.single, .single], fun | [d, a] => some (.minv d a) | _ => none)
  | ['M', 'A', 'D', 'D'] => some ([.single, .single, .single], fun | [d, a, b] => some (.madd d a b) | _ => none)
  | ['M', 'S', 'U', 'B'] => some ([.single, .single, .single], fun | [d, a, b] => some (.msub d a b) | _ => none)
  | ['M', 'M', 'U', 'L'] => some ([.single, .single, .single], fun | [d, a, b] => some (.mmul d a b) | _ => none)
  | ['P', 'C', 'H', 'K'] => some ([.pair], fun | [a] => some (.pchk a) | _ => none)
  | ['P', 'J', 'A', 'C'] => some ([.triple, .pair], fun | [d, a] => some (.pjac d a) | _ => none)
  | ['P', 'A', 'F', 'F'] => some ([.pair, .triple], fun | [d, a] => some (.paff d a) | _ => none)
  | ['P', 'A', 'D', 'D', 'J'] => some ([.triple, .triple, .triple], fun | [d, a, b] => some (.paddj d a b) | _ => none)
  | ['P', 'D', 'B', 'L', 'J'] => some ([.triple, .triple], fun | [d, a] => some (.pdblj d a) | _ => none)
  | ['P', 'A', 'D', 'D'] => some ([.pair, .pair, .pair], fun | [d, a, b] => some (.padd d a b) | _ => none)
  | ['P', 'D', 'B', 'L'] => some ([.pair, .pair], fun | [d, a] => some (.pdbl d a) | _ => none)
  | ['S', 'M', 'U', 'L'] => some ([.pair, .pair, .single], fun | [d, a, b] => some (.smul d a b) | _ => none)
  | ['S', 'B', 'M', 'U', 'L'] => some ([.pair, .single], fun | [d, a] => some (.sbmul d a) | _ => none)
  | ['P', 'E', 'N', 'C'] => some ([.pair], fun | [a] => some (.penc a) | _ => none)
  | ['P', 'D', 'E', 'C'] => some ([.pair], fun | [d] => some (.pdec d) | _ => none)
  | ['M', 'S', 'Q', 'R'] => some ([.single, .single], fun | [d, a] => some (.msqr d a) | _ => none)
  | ['M', 'D', 'B', 'L'] => some ([.single, .single], fun | [d, a] => some (.mdbl d a) | _ => none)
  | ['M', 'C', 'L', 'R'] => some ([.single, .single], fun | [d, a] => some (.mclr d a) | _ => none)
  | _ => none

/-- A blank of a line. -/
def isBlank (c : Char) : Bool := c == ' ' || c == '\t'

/-- A text with the blanks at its two ends dropped. -/
def trim (cs : List Char) : List Char := ((cs.dropWhile isBlank).reverse.dropWhile isBlank).reverse

/-- The operand texts of a line's tail: separated by commas; a tail of blanks has none. -/
def operandTexts (cs : List Char) : List (List Char) :=
  if trim cs = [] then [] else (cs.splitOn ',').map trim

/-- One line: none is an error, `some none` a line with no command on it, else the command's instruction. -/
def readLine (line : List Char) : Option (Option Instr) :=
  let code := (line.takeWhile (· ≠ ';')).dropWhile isBlank
  let m := (code.takeWhile fun c => !isBlank c).map Char.toUpper
  if m = [] then some none
  else
    match mnemonicForm m with
    | none => none
    | some (ks, make) =>
      match readOperands ks (operandTexts (code.dropWhile fun c => !isBlank c)) with
      | none => none
      | some rs => (make rs).map some

/-- The word a line with a command on it assembles to. -/
def assembleLine (line : List Char) : Option Word :=
  match readLine line with
  | some (some i) => some (encode i)
  | _ => none

/-- The operands of a line, `vd, va, vb`. -/
def listOperands : List Reg → List Char
  | [] => []
  | [r] => ' ' :: regName r
  | r :: rs => ' ' :: (regName r ++ ',' :: listOperands rs)

/-- The line of an instruction (30 R132): its mnemonic and its used fields in the order RD, RA, RB. -/
def listing (i : Instr) : List Char :=
  match i with
  | .nop => ['N', 'O', 'P']
  | .mov d a => ['M', 'O', 'V'] ++ listOperands [d, a]
  | .mred d a => ['M', 'R', 'E', 'D'] ++ listOperands [d, a]
  | .madd d a b => ['M', 'A', 'D', 'D'] ++ listOperands [d, a, b]
  | .msub d a b => ['M', 'S', 'U', 'B'] ++ listOperands [d, a, b]
  | .mmul d a b => ['M', 'M', 'U', 'L'] ++ listOperands [d, a, b]
  | .minv d a => ['M', 'I', 'N', 'V'] ++ listOperands [d, a]
  | .pchk a => ['P', 'C', 'H', 'K'] ++ listOperands [a]
  | .pjac d a => ['P', 'J', 'A', 'C'] ++ listOperands [d, a]
  | .paff d a => ['P', 'A', 'F', 'F'] ++ listOperands [d, a]
  | .paddj d a b => ['P', 'A', 'D', 'D', 'J'] ++ listOperands [d, a, b]
  | .pdblj d a => ['P', 'D', 'B', 'L', 'J'] ++ listOperands [d, a]
  | .padd d a b => ['P', 'A', 'D', 'D'] ++ listOperands [d, a, b]
  | .pdbl d a => ['P', 'D', 'B', 'L'] ++ listOperands [d, a]
  | .smul d a b => ['S', 'M', 'U', 'L'] ++ listOperands [d, a, b]
  | .sbmul d a => ['S', 'B', 'M', 'U', 'L'] ++ listOperands [d, a]
  | .penc a => ['P', 'E', 'N', 'C'] ++ listOperands [a]
  | .pdec d => ['P', 'D', 'E', 'C'] ++ listOperands [d]

end Sys2Proof.Machine
end

