-- ==== Sys2Proof/Machine/HostOps.lean ====
section
/-! DEFINITION. The host pseudo-operations (30 R134) as schedules of bus accesses to a block of width `w` whose window
is at bus address `base`. The host's own control flow (labels, goto, branches) is the host's: `wait` is written with the
number of polls it made (DESIGN CHOICE, log 20: safe). -/
namespace Sys2Proof.Machine

/-- The byte offset of a V register's slot (20 R82). -/
def vOffset (r : Reg) : Nat := 0x1000 + 0x80 * r.val

/-- The byte offset of a parameter register's slot (10 R34). -/
def prmOffset : PrmReg → Nat
  | .p => 0x100
  | .n => 0x180
  | .b => 0x200
  | .gx => 0x280
  | .gy => 0x300

/-- The CSRs `ldc` may write (30 R134). -/
inductive Csr where
  | bitsize
  | klen
  | codecLen
  | irqen
deriving DecidableEq, Repr

/-- The byte offset of a CSR (20 R82). -/
def csrOffset : Csr → Nat
  | .bitsize => 0x018
  | .klen => 0x01C
  | .codecLen => 0x020
  | .irqen => 0x014

/-- The NW word writes that load a big register whose slot is at `off`. -/
def ldBig (w : Width) (base off : Nat) (x : Big) : List BusEvent :=
  (List.range (Config.bigWords w)).map fun j => .write (base + off + 4 * j) 4 (bigWord x j)

/-- `ldv vN, <int>`. -/
def ldv (w : Width) (base : Nat) (r : Reg) (x : Big) : List BusEvent := ldBig w base (vOffset r) x

/-- `ldp P|N|B|GX|GY, <int>`. -/
def ldp (w : Width) (base : Nat) (r : PrmReg) (x : Big) : List BusEvent := ldBig w base (prmOffset r) x

/-- `ldc BITSIZE|KLEN|CODEC_LEN|IRQEN, <imm32>`. -/
def ldc (base : Nat) (c : Csr) (x : Word) : List BusEvent := [.write (base + csrOffset c) 4 x]

/-- `ldbuf b0, b1, ...`: the words that cover the bytes; bytes past the list are 0. -/
def ldbuf (base : Nat) (bs : List Byte) : List BusEvent :=
  (List.range ((bs.length + 3) / 4)).map fun j =>
    .write (base + 0x2000 + 4 * j) 4
      (wordOfLanes (bs.getD (4 * j) 0#8) (bs.getD (4 * j + 1) 0#8) (bs.getD (4 * j + 2) 0#8) (bs.getD (4 * j + 3) 0#8))

/-- One poll of STATUS. -/
def poll (base : Nat) : BusEvent := .read (base + 0x010) 4

/-- `exec <command>`: the write to CMD, then `wait`, here `n` polls that find the engine BUSY, the completion, and the poll
that finds DONE. -/
def execWait (base : Nat) (i : Instr) (n : Nat) : List BusEvent :=
  .write (base + 0x00C) 4 (encode i) :: (List.replicate n (poll base) ++ [.engineTurn, poll base])

/-- `rdv vN`. -/
def rdv (w : Width) (base : Nat) (r : Reg) : List BusEvent :=
  (List.range (Config.bigWords w)).map fun j => .read (base + vOffset r + 4 * j) 4

/-- `rdbuf n`: the words that cover bytes 0 to n − 1. -/
def rdbuf (base n : Nat) : List BusEvent :=
  (List.range ((n + 3) / 4)).map fun j => .read (base + 0x2000 + 4 * j) 4

/-- The ERR field of a STATUS word the host has read, `s[11:8]`. -/
def errField (w : Word) : BitVec 4 := w.extractLsb' 8 4

/-- The RES field of a STATUS word the host has read, `s[2]`. -/
def resField (w : Word) : Bool := w.getLsbD 2

end Sys2Proof.Machine
end

