-- ==== Sys2Proof/Machine/Run.lean ====
section
/-! DEFINITION. The start and the end of a run of a host program (70 R384, R385; 92 D45): the clean-entry premise, and when a
run is over. -/
namespace Sys2Proof.Machine

/-- What a host program relies on at its start, given explicitly: V registers, PRM registers and BUF bytes with the values
they hold (70 R384). -/
structure Contents where
  v : List (Reg × Big)
  prm : List (PrmReg × Big)
  buf : Memory
deriving DecidableEq, Repr

/-- Clean entry (70 R384): the premise of a claim about the host program `prog`. The engine is IDLE, STATUS is 0, the program
is what the host does next, every listed register holds the value listed, and the BUF bytes that hold a value are exactly
those listed. That no fault and no refusal has been recorded is the state's being there: a stop leaves no state. A V or PRM
register that is not listed has some value, on which the program may not rely (log 1). -/
def CleanEntry (prog : List BusEvent) (c : Contents) (s : State) : Prop :=
  s.engine = .idle ∧ s.status = ⟨.ok, false, false, false⟩ ∧ s.inputs = prog
  ∧ (∀ e ∈ c.v, readV s e.1 = e.2) ∧ (∀ e ∈ c.prm, readPrm s.prm e.1 = e.2) ∧ s.buf = c.buf

/-- Is the event an access of the host (20 R80)? -/
def isAccess : BusEvent → Bool
  | .read _ _ => true
  | .write _ _ _ => true
  | .engineTurn => false
  | .powerOn => false

/-- Is the run over (70 R385)? The host has made its last access and the engine is IDLE. -/
def runOver (s : State) : Bool := s.inputs.all (fun e => !isAccess e) && !isBusy s

/-- `n` steps, or the fault or refusal that a step among them met. -/
def runFor : Nat → State → Host.Outcome State Fault Refusal
  | 0, s => .next s
  | n + 1, s =>
    match step s with
    | .next t => runFor n t
    | .fault f => .fault f
    | .refused r => .refused r

/-- The whole run from a state: its end state, or the fault or refusal that leaves it without one (70 R385). Each step takes
one event off the schedule, and one more completes what is then still pending (DEDUCED, log 21: safe). -/
def wholeRun (s : State) : Host.Outcome State Fault Refusal := runFor (s.inputs.length + 1) s

end Sys2Proof.Machine
end

