-- ==== Sys2Proof/Safety.lean ====
section
/-! DEFINITION. What claims are stated in: how a command's completion leaves the state, which registers a command may write,
when a state is ready for a command, and the invariant of the machine. -/
namespace Sys2Proof.Machine

/-- `s` after command word `c` was accepted and completed with error code `e` and result bit `b`, every other part of the
state as it was (60 R326, R327). A command that writes more says so on top of this. -/
def afterCommand (s : State) (c : Word) (e : Err) (b : Bool) : State :=
  { s with
    cmd := c
    engine := .idle
    status := { s.status with err := e, res := b, done := true } }

/-- `t` is a state whose engine holds an accepted command, and the completion of that command leaves `u` (60 R327). -/
def Finishes (t u : State) : Prop := isBusy t = true ∧ engineStep t = u

/-- Every word with opcode `opc` is the word of a well-formed instruction that `f` describes, and decodes to it, or is illegal
and completes with ILLEGAL when it is written to CMD while IDLE (30 R126, R127; the ILLEGAL of every rule's errors). -/
def OpcodeMeans (opc : BitVec 6) (f : Instr → Prop) : Prop :=
  ∀ w : Word, w.extractLsb' 0 6 = opc →
    (∃ i, f i ∧ i.wf = true ∧ w = encode i ∧ decode w = .ok i)
    ∨ ((∃ e, decode w = .error e) ∧ ∀ s : State, isBusy s = false →
        ∃ t, writeEffect .cmd w s = .next t ∧ Finishes t (afterCommand s w .illegal false))

/-- The engine is IDLE, so a write to CMD is an acceptance (60 R326), and the parameter check passes (60 R323). -/
def Ready (s : State) : Prop := isBusy s = false ∧ paramsOk s = true

/-- The V registers an instruction may write (10 R32). -/
def destRegs : Instr → List Reg
  | .nop => []
  | .mov d _ => [d]
  | .mred d _ => [d]
  | .madd d _ _ => [d]
  | .msub d _ _ => [d]
  | .mmul d _ _ => [d]
  | .minv d _ => [d]
  | .pchk _ => []
  | .pjac d _ => [d, regPlus d 1, regPlus d 2]
  | .paff d _ => [d, regPlus d 1]
  | .paddj d _ _ => [d, regPlus d 1, regPlus d 2]
  | .pdblj d _ => [d, regPlus d 1, regPlus d 2]
  | .padd d _ _ => [d, regPlus d 1]
  | .pdbl d _ => [d, regPlus d 1]
  | .smul d _ _ => [d, regPlus d 1]
  | .sbmul d _ => [d, regPlus d 1]
  | .penc _ => []
  | .pdec d => [d, regPlus d 1]

/-- The instructions that check parameters: every one except NOP and MOV (60 R323). -/
def checksParams : Instr → Bool
  | .nop => false
  | .mov _ _ => false
  | _ => true

/-- The instructions that set RES: PCHK and PDEC (10 R41). -/
def setsRes : Instr → Bool
  | .pchk _ => true
  | .pdec _ => true
  | _ => false

/-- PENC, the one instruction that writes BUF and CODEC_LEN (10 R46, R48). -/
def writesBuf : Instr → Bool
  | .penc _ => true
  | _ => false

/-- A pending outcome as a command's rule gives it: with an error it holds no write and no result (60 R320), and it writes no
byte outside BUF. -/
def PendingWf (w : Width) (p : Pending) : Prop :=
  (p.err ≠ .ok → p = raiseError p.err) ∧ p.buf.length ≤ Config.bufBytes w

/-- A big number that fits in a register of width w: below 2^W (10 R30). -/
def Fits (w : Width) (x : Big) : Prop := x.toNat < 2 ^ Config.wBits w

/-- The invariant of the machine: BUF is in canonical form; while BUSY, DONE, RES and ERR are 0 (60 R326), what is pending is
well formed, and every register write in it fits in W bits (10 R33); RES is 1 only with ERR 0 (60 R327); the window is
aligned to 16 KiB (00 R8); every V and PRM register holds an integer below 2^W (10 R30, R34). -/
def Inv (s : State) : Prop :=
  Memory.wf (Config.bufBytes s.width) s.buf
  ∧ (isBusy s = true → s.status.done = false ∧ s.status.res = false ∧ s.status.err = .ok)
  ∧ (∀ p, s.engine = .busy p → PendingWf s.width p ∧ ∀ e ∈ p.vWrites, Fits s.width e.2)
  ∧ (s.status.res = true → s.status.err = .ok)
  ∧ Config.windowBytes ∣ s.base
  ∧ (∀ r : Reg, Fits s.width (readV s r))
  ∧ (∀ r : PrmReg, Fits s.width (readPrm s.prm r))

/-- A step that stops neither with a fault nor with a refusal. -/
def SafeStep (s : State) : Prop := ∃ t, step s = .next t

end Sys2Proof.Machine
end

