-- ==== Sys2Proof/Certificates/Slice0/Obligations.lean ====
section
/-! DEFINITION. What is claimed of the model. Each docstring names the rule it formalises. A claim about a command says first
what the words with its opcode are (`OpcodeMeans`), then what it does: `exec i s = .next t` is its acceptance, and
`Finishes t u` says that the completion leaves exactly `u`. That is the result and, since `u` is written as `s` with the
changed parts named, the frame. -/
open Sys2Proof Sys2Proof.Machine

/-! ### Encoding -/

/-- 30 R126, R127: decoding the word of a well-formed instruction gives the instruction back, every operand at every legal
value. -/
def Obligations.DecodeOfEncode : Prop := ∀ i : Instr, i.wf = true → decode (encode i) = .ok i

/-- 30 R127: a word that decodes is the word of the instruction it decodes to, and that instruction is well formed. -/
def Obligations.EncodeOfDecode : Prop :=
  ∀ (w : Word) (i : Instr), decode w = .ok i → encode i = w ∧ i.wf = true

/-- 30 R127: exactly the words with a reserved bit set, an opcode outside the map, a non-zero unused field, a pair base of 15
or a triple base of 14 or 15 are illegal; such a word is accepted by an IDLE engine and completes with ERR = ILLEGAL, changing
CMD and STATUS only. Every other word is the word of one well-formed instruction and decodes to it. The map's kinds are
written out here by opcode. -/
def Obligations.IllegalWordsCompleteIllegal : Prop :=
  ∀ (w : Word) (s : State),
    let opc := (w.extractLsb' 0 6).toNat
    let rd := (w.extractLsb' 6 4).toNat
    let ra := (w.extractLsb' 10 4).toNat
    let rb := (w.extractLsb' 14 4).toNat
    ((∃ e, decode w = .error e) ↔
      (w.extractLsb' 18 14 ≠ 0
        ∨ opc ∉ [0x00, 0x01, 0x02, 0x03, 0x04, 0x05, 0x06, 0x10, 0x11, 0x12, 0x13, 0x14, 0x15, 0x16, 0x18, 0x19, 0x1C, 0x1D]
        ∨ (opc ∈ [0x00, 0x10, 0x1C] ∧ rd ≠ 0)
        ∨ (opc ∈ [0x00, 0x1D] ∧ ra ≠ 0)
        ∨ (opc ∈ [0x00, 0x01, 0x02, 0x06, 0x10, 0x11, 0x12, 0x14, 0x16, 0x19, 0x1C, 0x1D] ∧ rb ≠ 0)
        ∨ (opc ∈ [0x12, 0x15, 0x16, 0x18, 0x19, 0x1D] ∧ rd = 15)
        ∨ (opc ∈ [0x10, 0x11, 0x15, 0x16, 0x18, 0x1C] ∧ ra = 15)
        ∨ (opc = 0x15 ∧ rb = 15)
        ∨ (opc ∈ [0x11, 0x13, 0x14] ∧ 14 ≤ rd)
        ∨ (opc ∈ [0x12, 0x13, 0x14] ∧ 14 ≤ ra)
        ∨ (opc = 0x13 ∧ 14 ≤ rb)))
    ∧ ((∃ e, decode w = .error e) → isBusy s = false →
        ∃ t, writeEffect .cmd w s = .next t ∧ Finishes t (afterCommand s w .illegal false))
    ∧ ((∀ e, decode w ≠ .error e) → ∃ i, decode w = .ok i ∧ i.wf = true ∧ encode i = w ∧ i.opcode = w.extractLsb' 0 6)

/-- 95 section 2.3: words written out from the field layout decode to the instructions they stand for, one a family. -/
def Obligations.SampleWordsDecode : Prop :=
  decode 0x00000000#32 = .ok .nop
  ∧ decode 0x00037BC4#32 = .ok (.msub 15 14 13)
  ∧ decode 0x00003B51#32 = .ok (.pjac 13 14)
  ∧ decode 0x0003F398#32 = .ok (.smul 14 12 15)
  ∧ decode 0x0000381C#32 = .ok (.penc 14)
  ∧ decode 0x0000039D#32 = .ok (.pdec 14)
  ∧ decode 0x00000391#32 = .error .tripleRange
  ∧ decode 0x0000005C#32 = .error .unusedField

/-- 30 R132: the line of a well-formed instruction assembles to its word. -/
def Obligations.ListingAssembles : Prop :=
  ∀ i : Instr, i.wf = true → assembleLine (listing i) = some (encode i)

/-! ### The bus -/

/-- 60 R326, 30 R120 and 20 R81: when the next event is a 4-byte write to CMD (any address of its word) of a word that
decodes, and the engine is IDLE, the step is exec of that instruction, on the state with the event taken off the schedule;
and in every phase the step of a 4-byte write at any offset of the window is the effect of that write on the word the offset
reaches, which is what the claims over writeEffect speak of. -/
def Obligations.StepRunsDecodedCommand : Prop :=
  (∀ (s : State) (k : Nat) (w : Word) (rest : List BusEvent) (i : Instr),
    k < 4 → s.inputs = .write (s.base + 0x00C + k) 4 w :: rest → isBusy s = false → decode w = .ok i →
    step s = exec i { s with inputs := rest })
  ∧ ∀ (s : State) (off : Nat) (x : Word) (rest : List BusEvent),
    off < 0x4000 → s.inputs = .write (s.base + off) 4 x :: rest →
    step s = writeEffect (target s.width off) x { s with inputs := rest }

/-- 20 R82, R91: the address map, at every width: NW and BUFWORDS words are used (18 and 37 in version 1.0). Every offset of
the window, whatever its bits [1:0], reaches the word the map names. -/
def Obligations.AddressMap : Prop :=
  ∀ w : Width,
    (∀ k < 4, target w k = .id ∧ target w (0x004 + k) = .cfg ∧ target w (0x008 + k) = .ctrl ∧ target w (0x00C + k) = .cmd
      ∧ target w (0x010 + k) = .status ∧ target w (0x014 + k) = .irqen ∧ target w (0x018 + k) = .bitsize
      ∧ target w (0x01C + k) = .klen ∧ target w (0x020 + k) = .codecLen)
    ∧ (∀ off, 0x024 ≤ off → off < 0x100 → target w off = .reserved)
    ∧ (∀ (r : PrmReg) (j k : Nat), j < Config.bigWords w → k < 4 → target w (prmOffset r + 4 * j + k) = .prm r j)
    ∧ (∀ (r : PrmReg) (n : Nat), 4 * Config.bigWords w ≤ n → n < 0x80 → target w (prmOffset r + n) = .reserved)
    ∧ (∀ off, 0x380 ≤ off → off < 0x1000 → target w off = .reserved)
    ∧ (∀ (r : Reg) (j k : Nat), j < Config.bigWords w → k < 4 → target w (vOffset r + 4 * j + k) = .v r j)
    ∧ (∀ (r : Reg) (n : Nat), 4 * Config.bigWords w ≤ n → n < 0x80 → target w (vOffset r + n) = .reserved)
    ∧ (∀ off, 0x1800 ≤ off → off < 0x2000 → target w off = .reserved)
    ∧ (∀ j k, j < Config.bufWords w → k < 4 → target w (0x2000 + 4 * j + k) = .buf j)
    ∧ (∀ off, 0x2000 + Config.bufBytes w ≤ off → off < 0x4000 → target w off = .reserved)

/-- 20 R81: an access outside the window, of any width, does not reach the block: the step only takes it off the schedule. -/
def Obligations.OutsideWindowReachesNothing : Prop :=
  ∀ (s : State) (address size : Nat) (w : Word) (rest : List BusEvent),
    (address < s.base ∨ s.base + 0x4000 ≤ address) →
    (s.inputs = .read address size :: rest ∨ s.inputs = .write address size w :: rest) →
    step s = .next { s with inputs := rest }

/-- 20 R92, 60 R340 item 2: an access inside the window of another width than 4 bytes is refused, with the width named. -/
def Obligations.NarrowAccessRefused : Prop :=
  ∀ (s : State) (off size : Nat) (w : Word) (rest : List BusEvent),
    off < 0x4000 → size ≠ 4 →
    (s.inputs = .read (s.base + off) size :: rest ∨ s.inputs = .write (s.base + off) size w :: rest) →
    step s = .refused (.accessWidth size)

/-- 20 R83: a host write of word j of a V or PRM register while IDLE replaces bits [32j+31:32j] and no other bit of the
register, and changes nothing else of the state; a read of word j returns bits [32j+31:32j]. -/
def Obligations.BigWordAccess : Prop :=
  ∀ (s : State) (x : Word) (j : Nat), isBusy s = false → j < Config.bigWords s.width →
    (∀ r : Reg, ∃ y : Big,
      writeEffect (.v r j) x s = .next { s with v := setV s.v r y }
      ∧ (∀ n, y.getLsbD n = if 32 * j ≤ n ∧ n < 32 * j + 32 then x.getLsbD (n - 32 * j) else (readV s r).getLsbD n)
      ∧ (∀ n < 32, (readTarget (.v r j) s).getLsbD n = (readV s r).getLsbD (32 * j + n)))
    ∧ (∀ r : PrmReg, ∃ y : Big,
      writeEffect (.prm r j) x s = .next { s with prm := setPrm s.prm r y }
      ∧ (∀ n, y.getLsbD n = if 32 * j ≤ n ∧ n < 32 * j + 32 then x.getLsbD (n - 32 * j) else (readPrm s.prm r).getLsbD n)
      ∧ (∀ n < 32, (readTarget (.prm r j) s).getLsbD n = (readPrm s.prm r).getLsbD (32 * j + n)))

/-- 20 R85: at every width, writing all NW words of a big number, in any order, over any old value, leaves exactly the new
value. -/
def Obligations.AllWordsInAnyOrder : Prop :=
  ∀ (w : Width) (old new : Big) (order : List Nat), Fits w old → Fits w new →
    order.Perm (List.range (Config.bigWords w)) →
    order.foldl (fun y j => setBigWord y j (bigWord new j)) old = new

/-- 20 R86: a host write of word j of BUF while IDLE writes bytes 4j to 4j+3 from the lanes [7:0], [15:8], [23:16] and
[31:24], and leaves every other byte and the rest of the state; a read of a word whose bytes hold values returns them in the
same lanes. -/
def Obligations.BufByteLanes : Prop :=
  ∀ (s : State) (x : Word) (j : Nat), isBusy s = false → j < Config.bufWords s.width →
    (∃ m : Memory, writeEffect (.buf j) x s = .next { s with buf := m }
      ∧ (∀ k < 4, Memory.read m (4 * j + k) = some (x.extractLsb' (8 * k) 8))
      ∧ (∀ a, a < 4 * j ∨ 4 * j + 4 ≤ a → Memory.read m a = Memory.read s.buf a))
    ∧ (∀ k < 4, ∀ b : Byte, Memory.read s.buf (4 * j + k) = some b →
        (readTarget (.buf j) s).extractLsb' (8 * k) 8 = b)

/-- 20 R87: while BUSY a host write to CMD, BITSIZE, KLEN, CODEC_LEN, a used word of PRM or V, or a word of BUF sets BUSYWR
and does nothing else; writes to CTRL, STATUS and IRQEN have their effect and do not set it; writes to ID, CFG and reserved
words do nothing. While IDLE no write sets BUSYWR. -/
def Obligations.WritesAndBusy : Prop :=
  ∀ (s : State) (x : Word),
    (isBusy s = true →
      (∀ tg : Target,
        (tg = .cmd ∨ tg = .bitsize ∨ tg = .klen ∨ tg = .codecLen ∨ (∃ r j, tg = .prm r j) ∨ (∃ r j, tg = .v r j)
          ∨ (∃ j, tg = .buf j)) →
        writeEffect tg x s = .next { s with status := { s.status with busywr := true } })
      ∧ writeEffect .ctrl x s = .next (if x.getLsbD 0 = true then softReset s else s)
      ∧ writeEffect .status x s = .next { s with status := { s.status with
          done := if x.getLsbD 1 = true then false else s.status.done
          busywr := if x.getLsbD 3 = true then false else s.status.busywr } }
      ∧ writeEffect .irqen x s = .next { s with doneIe := x.getLsbD 0 })
    ∧ (∀ tg ∈ [Target.id, .cfg, .reserved], writeEffect tg x s = .next s)
    ∧ (isBusy s = false → ∀ (tg : Target) (t : State), writeEffect tg x s = .next t →
        t.status.busywr = true → s.status.busywr = true)

/-- 20 R88: while BUSY a host read of a word of PRM, V or BUF returns 0 and has no effect, and the CSRs return their current
values. -/
def Obligations.ReadsWhileBusy : Prop :=
  ∀ s : State, isBusy s = true →
    (∀ tg : Target, ((∃ r j, tg = .prm r j) ∨ (∃ r j, tg = .v r j) ∨ (∃ j, tg = .buf j)) →
      readEffect tg s = { s with rdata := some 0#32 })
    ∧ readTarget .id s = 0x45430100#32 ∧ (readTarget .cfg s).toNat = 2 ^ 20 + Config.wBits s.width ∧ readTarget .ctrl s = 0#32
    ∧ readTarget .cmd s = s.cmd ∧ readTarget .status s = statusWord s ∧ (readTarget .irqen s).toNat = s.doneIe.toNat
    ∧ (readTarget .bitsize s).toNat = s.bitsize.toNat ∧ (readTarget .klen s).toNat = s.klen.toNat
    ∧ (readTarget .codecLen s).toNat = s.codecLen.toNat

/-- 20 R84: a read of a reserved offset returns 0 and a write there changes nothing, in any phase. -/
def Obligations.ReservedOffsets : Prop :=
  ∀ (s : State) (off : Nat) (x : Word) (rest : List BusEvent), off < 0x4000 → target s.width off = .reserved →
    (s.inputs = .read (s.base + off) 4 :: rest →
      step s = .next { s with inputs := rest, rdata := some 0#32 })
    ∧ (s.inputs = .write (s.base + off) 4 x :: rest → step s = .next { s with inputs := rest })

/-- 20 R89: the step of a 4-byte host read at any offset of the window returns the word the offset reaches and changes nothing
of the block: every field but the model's own record of the bus (schedule, word read, free bytes drawn) is as it was. -/
def Obligations.ReadsHaveNoSideEffect : Prop :=
  ∀ (s : State) (off : Nat) (rest : List BusEvent), off < 0x4000 → s.inputs = .read (s.base + off) 4 :: rest →
    step s = .next { s with
      inputs := rest
      rdata := some (readTarget (target s.width off) { s with inputs := rest })
      draws := s.draws + drawsOf (target s.width off) { s with inputs := rest } }

/-- 10 R41, 60 R321: the STATUS word: ERR in [11:8] by its code, BUSYWR in 3, RES in 2, DONE in 1, BUSY in 0, the other bits
0. -/
def Obligations.StatusWordFields : Prop :=
  ∀ s : State,
    (readTarget .status s).toNat =
      256 * (match s.status.err with
        | .ok => 0 | .illegal => 1 | .badParam => 2 | .notInvertible => 3 | .range => 4 | .badScalarLen => 5)
      + 8 * s.status.busywr.toNat + 4 * s.status.res.toNat + 2 * s.status.done.toNat + (isBusy s).toNat

/-- 10 R42: a write to STATUS, in any phase, clears DONE where bit 1 is 1 and BUSYWR where bit 3 is 1 and changes nothing
else; a completion that follows it sets DONE whatever was written (the order that stands for the rule's
"same cycle" is the model's, log 14). -/
def Obligations.StatusWriteClears : Prop :=
  ∀ (s : State) (x : Word),
    ∃ t, writeEffect .status x s = .next t
      ∧ t = { s with status := { s.status with
          done := if x.getLsbD 1 then false else s.status.done
          busywr := if x.getLsbD 3 then false else s.status.busywr } }
      ∧ (isBusy s = true → (engineStep t).status.done = true)

/-- 70 R381: a write with bit 0 set to CTRL, in any phase, aborts the command and clears CMD, STATUS, IRQEN, BITSIZE, KLEN
and CODEC_LEN, and leaves V, PRM and BUF; with bit 0 clear it does nothing. -/
def Obligations.SoftReset : Prop :=
  ∀ (s : State) (x : Word) (rest : List BusEvent), s.inputs = .write (s.base + 0x008) 4 x :: rest →
    step s = .next (if x.getLsbD 0 = true then
      { s with
        inputs := rest, engine := .idle, cmd := 0#32, status := ⟨.ok, false, false, false⟩, doneIe := false,
        bitsize := 0#16, klen := 0#8, codecLen := 0#16 }
      else { s with inputs := rest })

/-- 60 R330: irq is DONE and DONE_IE. A completion raises it when DONE_IE is 1, and so does setting DONE_IE while DONE is 1;
a write that clears DONE or DONE_IE, a write to CMD while IDLE, a soft reset and a power-on reset bring it to 0. -/
def Obligations.InterruptLine : Prop :=
  ∀ (s : State) (x : Word),
    (irq s = true ↔ s.status.done = true ∧ s.doneIe = true)
    ∧ (isBusy s = true → irq (engineStep s) = s.doneIe)
    ∧ (∃ t, writeEffect .irqen x s = .next t ∧ irq t = (s.status.done && x.getLsbD 0))
    ∧ (x.getLsbD 1 = true → ∃ t, writeEffect .status x s = .next t ∧ irq t = false)
    ∧ (isBusy s = false → ∀ t, writeEffect .cmd x s = .next t → irq t = false)
    ∧ (x.getLsbD 0 = true → ∃ t, writeEffect .ctrl x s = .next t ∧ irq t = false)
    ∧ irq (powerOnReset s) = false

/-- 10 R43 to R46: while IDLE, what is written to IRQEN, BITSIZE, KLEN and CODEC_LEN is read back in the field's width, the
reserved bits as 0, and the rest of the state is as before. -/
def Obligations.CsrReadback : Prop :=
  ∀ (s : State) (x : Word), isBusy s = false →
    (∃ y, writeEffect .irqen x s = .next { s with doneIe := y }
      ∧ (readTarget .irqen { s with doneIe := y }).toNat = x.toNat % 2)
    ∧ (∃ y, writeEffect .bitsize x s = .next { s with bitsize := y }
      ∧ (readTarget .bitsize { s with bitsize := y }).toNat = x.toNat % 2 ^ 16)
    ∧ (∃ y, writeEffect .klen x s = .next { s with klen := y }
      ∧ (readTarget .klen { s with klen := y }).toNat = x.toNat % 2 ^ 8)
    ∧ (∃ y, writeEffect .codecLen x s = .next { s with codecLen := y }
      ∧ (readTarget .codecLen { s with codecLen := y }).toNat = x.toNat % 2 ^ 16)

/-! ### The life of a command -/

/-- 60 R326: whatever the instruction, when exec answers a next state, that state is the old one with CMD holding the word,
DONE, RES and ERR cleared, BUSYWR as it was, the engine BUSY with a pending outcome, and nothing else changed. -/
def Obligations.AcceptanceChangesOnly : Prop :=
  ∀ (i : Instr) (s t : State), exec i s = .next t →
    ∃ p : Pending, PendingWf s.width p ∧
      t = { s with cmd := encode i, engine := .busy p,
                   status := { s.status with done := false, res := false, err := .ok } }

/-- 60 R327, 70 R392: at a turn of the engine, or with no event left on the schedule (the schedule is the model's, log 4), the
step is engineStep, which the claims about a command's completion speak of. Of a BUSY engine it completes the command: the
engine is IDLE, DONE is 1 and ERR is the pending code; when that code is 0, RES is the pending result, every pending V write
is applied, the pending bytes stand in BUF from byte 0 on and CODEC_LEN is the pending length if there is one; a V register
and a BUF byte that no write names, and every other part of the state, BUSYWR among them, are as they were; when the code is
not 0 only STATUS is written, with RES 0. Of an IDLE engine it changes nothing. -/
def Obligations.CompletionStep : Prop :=
  ∀ s : State, (s.inputs = [] ∨ ∃ rest, s.inputs = .engineTurn :: rest) →
    step s = .next (engineStep { s with inputs := s.inputs.tail })
    ∧ (isBusy s = false → step s = .next { s with inputs := s.inputs.tail })
    ∧ ∀ p : Pending, s.engine = .busy p →
      (p.err = .ok → ∃ (v : Vector Big 16) (m : Memory),
        step s = .next { s with
          inputs := s.inputs.tail, engine := .idle, status := ⟨.ok, s.status.busywr, p.res, true⟩
          v := v, buf := m, codecLen := p.codecLen.getD s.codecLen }
        ∧ ((p.vWrites.map Prod.fst).Nodup → ∀ e ∈ p.vWrites, v.get e.1 = e.2)
        ∧ (∀ r : Reg, r ∉ p.vWrites.map Prod.fst → v.get r = s.v.get r)
        ∧ ∀ a, Memory.read m a = if a < p.buf.length then p.buf[a]? else Memory.read s.buf a)
      ∧ (p.err ≠ .ok → step s = .next { s with
          inputs := s.inputs.tail, engine := .idle, status := ⟨p.err, s.status.busywr, false, true⟩ })

/-- 60 R320, R328: a command that completes with ERR ≠ 0 has changed nothing but CMD and STATUS. -/
def Obligations.ErrorsArePrecise : Prop :=
  ∀ (i : Instr) (s t : State), exec i s = .next t → (engineStep t).status.err ≠ .ok →
    engineStep t = afterCommand s (encode i) (engineStep t).status.err false

/-- 10 R32, R34, R46, R48 and 30 R125: the frame of every command, accepted and completed: a V register that is no
destination, every parameter register, BITSIZE, KLEN, IRQEN and BUSYWR are unchanged; BUF and CODEC_LEN are unchanged unless
the command is PENC, and of BUF the bytes from 1 + 2·byteLen on even then; RES is 0 unless the command is PCHK or PDEC. -/
def Obligations.CommandFrame : Prop :=
  ∀ (i : Instr) (s t : State), exec i s = .next t →
    (∀ r : Reg, r ∉ destRegs i → readV (engineStep t) r = readV s r)
    ∧ (engineStep t).prm = s.prm ∧ (engineStep t).bitsize = s.bitsize ∧ (engineStep t).klen = s.klen
    ∧ (engineStep t).doneIe = s.doneIe ∧ (engineStep t).status.busywr = s.status.busywr
    ∧ (engineStep t).width = s.width ∧ (engineStep t).base = s.base ∧ (engineStep t).inputs = s.inputs
    ∧ (engineStep t).rdata = s.rdata
    ∧ (engineStep t).draws = s.draws
    ∧ (writesBuf i = false →
        (∀ a, Memory.read (engineStep t).buf a = Memory.read s.buf a) ∧ (engineStep t).codecLen = s.codecLen)
    ∧ (∀ a, 1 + 2 * byteLen s ≤ a → Memory.read (engineStep t).buf a = Memory.read s.buf a)
    ∧ (setsRes i = false → (engineStep t).status.res = false)

/-- 60 R321 to R325: the checks in their order. A term whose word is illegal reports ILLEGAL (log 11); then every command
except NOP and MOV reports BAD_PARAM unless P is odd, P ≥ 3, 1 ≤ BITSIZE ≤ W and P < 2^BITSIZE; then SMUL and SBMUL report
BAD_SCALAR_LEN when KLEN > KBYTES (W = 576 and KBYTES = 72 in version 1.0). Each is complete: the run answers a next state that
changes CMD and STATUS only. -/
def Obligations.ErrorPriority : Prop :=
  ∀ (i : Instr) (s : State), isBusy s = false →
    let okP := s.prm.p.toNat % 2 = 1 ∧ 3 ≤ s.prm.p.toNat ∧ 1 ≤ s.bitsize.toNat ∧ s.bitsize.toNat ≤ Config.wBits s.width
      ∧ s.prm.p.toNat < 2 ^ s.bitsize.toNat
    (i.wf = false → ∃ t, exec i s = .next t ∧ Finishes t (afterCommand s (encode i) .illegal false))
    ∧ (i.wf = true → checksParams i = true → ¬okP →
        ∃ t, exec i s = .next t ∧ Finishes t (afterCommand s (encode i) .badParam false))
    ∧ (i.wf = true → okP → Config.scalarBytes s.width < s.klen.toNat →
        ((∃ d a b, i = .smul d a b) ∨ ∃ d a, i = .sbmul d a) →
        ∃ t, exec i s = .next t ∧ Finishes t (afterCommand s (encode i) .badScalarLen false))

/-- 10 R33, 40 R161, 41 R212 item 3: what a computing command writes is a residue: after MRED, MADD, MSUB, MMUL, MINV, PAFF,
PDBLJ, PADD, PDBL, SMUL and SBMUL that end with ERR = 0 every destination register holds a value below P. -/
def Obligations.ResultsAreReduced : Prop :=
  ∀ (i : Instr) (s t : State), i.wf = true → exec i s = .next t → (engineStep t).status.err = .ok →
    (match i with
      | .mred _ _ | .madd _ _ _ | .msub _ _ _ | .mmul _ _ _ | .minv _ _ | .paff _ _ | .pdblj _ _ | .padd _ _ _
      | .pdbl _ _ | .smul _ _ _ | .sbmul _ _ => True
      | _ => False) →
    ∀ r ∈ destRegs i, (readV (engineStep t) r).toNat < s.prm.p.toNat

/-! ### Field commands -/

/-- 40 R162: NOP completes with ERR = 0 and RES = 0 whatever the parameters are, and writes nothing. -/
def Obligations.NopResult : Prop :=
  OpcodeMeans 0x00#6 (fun i => i = .nop) ∧
  ∀ s : State, isBusy s = false →
    encode .nop = 0x00000000#32 ∧ ∃ t, exec .nop s = .next t ∧ Finishes t (afterCommand s 0x00000000#32 .ok false)

/-- 40 R163: MOV copies V[a] to V[d] unchanged, whatever the parameters are. -/
def Obligations.MovResult : Prop :=
  OpcodeMeans 0x01#6 (fun i => ∃ d a, i = .mov d a) ∧
  ∀ (d a : Reg) (s : State), isBusy s = false →
    (encode (.mov d a)).toNat = 0x01 + 2 ^ 6 * d.val + 2 ^ 10 * a.val
    ∧ ∃ t, exec (.mov d a) s = .next t
      ∧ Finishes t { afterCommand s (encode (.mov d a)) .ok false with v := setV s.v d (readV s a) }

/-- 40 R164: MRED writes V[a] mod P, or reports BAD_PARAM. -/
def Obligations.MredResult : Prop :=
  OpcodeMeans 0x02#6 (fun i => ∃ d a, i = .mred d a) ∧
  ∀ (d a : Reg) (s : State), isBusy s = false →
    (encode (.mred d a)).toNat = 0x02 + 2 ^ 6 * d.val + 2 ^ 10 * a.val
    ∧ (paramsOk s = true → ∃ (t : State) (y : Big), exec (.mred d a) s = .next t
      ∧ y.toNat = (readV s a).toNat % s.prm.p.toNat
      ∧ Finishes t { afterCommand s (encode (.mred d a)) .ok false with v := setV s.v d y })
    ∧ (paramsOk s = false → ∃ t, exec (.mred d a) s = .next t
      ∧ Finishes t (afterCommand s (encode (.mred d a)) .badParam false))

/-- 40 R165: MADD writes (V[a] + V[b]) mod P, or reports BAD_PARAM. -/
def Obligations.MaddResult : Prop :=
  OpcodeMeans 0x03#6 (fun i => ∃ d a b, i = .madd d a b) ∧
  ∀ (d a b : Reg) (s : State), isBusy s = false →
    (encode (.madd d a b)).toNat = 0x03 + 2 ^ 6 * d.val + 2 ^ 10 * a.val + 2 ^ 14 * b.val
    ∧ (paramsOk s = true → ∃ (t : State) (y : Big), exec (.madd d a b) s = .next t
      ∧ y.toNat = ((readV s a).toNat + (readV s b).toNat) % s.prm.p.toNat
      ∧ Finishes t { afterCommand s (encode (.madd d a b)) .ok false with v := setV s.v d y })
    ∧ (paramsOk s = false → ∃ t, exec (.madd d a b) s = .next t
      ∧ Finishes t (afterCommand s (encode (.madd d a b)) .badParam false))

/-- 40 R166: MSUB writes the Euclidean residue of V[a] − V[b], the one value below P that gives V[a] when V[b] is added, or
reports BAD_PARAM. -/
def Obligations.MsubResult : Prop :=
  OpcodeMeans 0x04#6 (fun i => ∃ d a b, i = .msub d a b) ∧
  ∀ (d a b : Reg) (s : State), isBusy s = false →
    (encode (.msub d a b)).toNat = 0x04 + 2 ^ 6 * d.val + 2 ^ 10 * a.val + 2 ^ 14 * b.val
    ∧ (paramsOk s = true → ∃ (t : State) (y : Big), exec (.msub d a b) s = .next t
      ∧ y.toNat < s.prm.p.toNat ∧ (y.toNat + (readV s b).toNat) % s.prm.p.toNat = (readV s a).toNat % s.prm.p.toNat
      ∧ Finishes t { afterCommand s (encode (.msub d a b)) .ok false with v := setV s.v d y })
    ∧ (paramsOk s = false → ∃ t, exec (.msub d a b) s = .next t
      ∧ Finishes t (afterCommand s (encode (.msub d a b)) .badParam false))

/-- 40 R167: MMUL writes the residue of the exact product, or reports BAD_PARAM. -/
def Obligations.MmulResult : Prop :=
  OpcodeMeans 0x05#6 (fun i => ∃ d a b, i = .mmul d a b) ∧
  ∀ (d a b : Reg) (s : State), isBusy s = false →
    (encode (.mmul d a b)).toNat = 0x05 + 2 ^ 6 * d.val + 2 ^ 10 * a.val + 2 ^ 14 * b.val
    ∧ (paramsOk s = true → ∃ (t : State) (y : Big), exec (.mmul d a b) s = .next t
      ∧ y.toNat = (readV s a).toNat * (readV s b).toNat % s.prm.p.toNat
      ∧ Finishes t { afterCommand s (encode (.mmul d a b)) .ok false with v := setV s.v d y })
    ∧ (paramsOk s = false → ∃ t, exec (.mmul d a b) s = .next t
      ∧ Finishes t (afterCommand s (encode (.mmul d a b)) .badParam false))

/-- 40 R168: MINV writes the one y below P with V[a]·y ≡ 1 (mod P) when gcd(V[a] mod P, P) = 1, and reports NOT_INVERTIBLE
when it is not, for prime and composite P; or it reports BAD_PARAM. -/
def Obligations.MinvResult : Prop :=
  OpcodeMeans 0x06#6 (fun i => ∃ d a, i = .minv d a) ∧
  ∀ (d a : Reg) (s : State), isBusy s = false →
    (encode (.minv d a)).toNat = 0x06 + 2 ^ 6 * d.val + 2 ^ 10 * a.val
    ∧ (paramsOk s = true → Nat.gcd ((readV s a).toNat % s.prm.p.toNat) s.prm.p.toNat = 1 →
      ∃ (t : State) (y : Big), exec (.minv d a) s = .next t
      ∧ y.toNat < s.prm.p.toNat ∧ (readV s a).toNat * y.toNat % s.prm.p.toNat = 1
      ∧ Finishes t { afterCommand s (encode (.minv d a)) .ok false with v := setV s.v d y })
    ∧ (paramsOk s = true → Nat.gcd ((readV s a).toNat % s.prm.p.toNat) s.prm.p.toNat ≠ 1 →
      ∃ t, exec (.minv d a) s = .next t ∧ Finishes t (afterCommand s (encode (.minv d a)) .notInvertible false))
    ∧ (paramsOk s = false → ∃ t, exec (.minv d a) s = .next t
      ∧ Finishes t (afterCommand s (encode (.minv d a)) .badParam false))

/-! ### Point commands -/

/-- 41 R201: PCHK sets RES exactly when y² ≡ x³ − 3x + B (mod P) and writes no V register; or it reports BAD_PARAM. -/
def Obligations.PchkResult : Prop :=
  OpcodeMeans 0x10#6 (fun i => ∃ a, i = .pchk a) ∧
  ∀ (a : Reg) (s : State), isBusy s = false → a.val ≤ 14 →
    (encode (.pchk a)).toNat = 0x10 + 2 ^ 10 * a.val
    ∧ (paramsOk s = true → ∃ (t : State) (b : Bool), exec (.pchk a) s = .next t
      ∧ (b = true ↔ ((readV s (a + 1)).toNat : Int) ^ 2 ≡
          ((readV s a).toNat : Int) ^ 3 - 3 * (readV s a).toNat + s.prm.b.toNat [ZMOD s.prm.p.toNat])
      ∧ Finishes t (afterCommand s (encode (.pchk a)) .ok b))
    ∧ (paramsOk s = false → ∃ t, exec (.pchk a) s = .next t
      ∧ Finishes t (afterCommand s (encode (.pchk a)) .badParam false))

/-- 41 R206, R202: PJAC copies x and y unchanged and writes Z = 0 for the integer pair (0, 0), else Z = 1; or it reports
BAD_PARAM. -/
def Obligations.PjacResult : Prop :=
  OpcodeMeans 0x11#6 (fun i => ∃ d a, i = .pjac d a) ∧
  ∀ (d a : Reg) (s : State), isBusy s = false → d.val ≤ 13 → a.val ≤ 14 →
    (encode (.pjac d a)).toNat = 0x11 + 2 ^ 6 * d.val + 2 ^ 10 * a.val
    ∧ (paramsOk s = true → ∃ (t : State) (z : Big), exec (.pjac d a) s = .next t
      ∧ z.toNat = (if (readV s a).toNat = 0 ∧ (readV s (a + 1)).toNat = 0 then 0 else 1)
      ∧ Finishes t { afterCommand s (encode (.pjac d a)) .ok false with
          v := setV (setV (setV s.v d (readV s a)) (d + 1) (readV s (a + 1))) (d + 2) z })
    ∧ (paramsOk s = false → ∃ t, exec (.pjac d a) s = .next t
      ∧ Finishes t (afterCommand s (encode (.pjac d a)) .badParam false))

/-- 41 R207, R203: PAFF writes (0, 0) when the integer Z is 0; else, when Z is invertible mod P, the one pair (x, y) below P
with x·Z² ≡ X and y·Z³ ≡ Y (mod P); else it reports NOT_INVERTIBLE; or it reports BAD_PARAM. -/
def Obligations.PaffResult : Prop :=
  OpcodeMeans 0x12#6 (fun i => ∃ d a, i = .paff d a) ∧
  ∀ (d a : Reg) (s : State), isBusy s = false → d.val ≤ 14 → a.val ≤ 13 →
    let P := s.prm.p.toNat
    let X := (readV s a).toNat
    let Y := (readV s (a + 1)).toNat
    let Z := (readV s (a + 2)).toNat
    (encode (.paff d a)).toNat = 0x12 + 2 ^ 6 * d.val + 2 ^ 10 * a.val
    ∧ (paramsOk s = true → (Z = 0 ∨ Nat.gcd (Z % P) P = 1) →
      ∃ (t : State) (x y : Big), exec (.paff d a) s = .next t
      ∧ (if Z = 0 then x = 0 ∧ y = 0
         else x.toNat < P ∧ y.toNat < P ∧ x.toNat * Z ^ 2 ≡ X [MOD P] ∧ y.toNat * Z ^ 3 ≡ Y [MOD P])
      ∧ Finishes t { afterCommand s (encode (.paff d a)) .ok false with v := setV (setV s.v d x) (d + 1) y })
    ∧ (paramsOk s = true → Z ≠ 0 → Nat.gcd (Z % P) P ≠ 1 →
      ∃ t, exec (.paff d a) s = .next t ∧ Finishes t (afterCommand s (encode (.paff d a)) .notInvertible false))
    ∧ (paramsOk s = false → ∃ t, exec (.paff d a) s = .next t
      ∧ Finishes t (afterCommand s (encode (.paff d a)) .badParam false))

/-- 41 R204: addJacobian returns the second operand unchanged when Z1 = 0, else the first unchanged when Z2 = 0; when U1 ≡ U2
and S1 ≡ S2 it doubles the first; else its three results are the residues of the add-2007-bl polynomials, here over the
integers with no intermediate reduction, and Z3 is 0 when U1 ≡ U2. -/
def Obligations.AddJacobianFormula : Prop :=
  ∀ (P : Nat) (j k : Jac), 3 ≤ P →
    let U1 : Int := j.x * (k.z : Int) ^ 2
    let U2 : Int := k.x * (j.z : Int) ^ 2
    let S1 : Int := j.y * (k.z : Int) ^ 3
    let S2 : Int := k.y * (j.z : Int) ^ 3
    let H := U2 - U1
    let I := (2 * H) ^ 2
    let r := 2 * (S2 - S1)
    let q := addJacobian P j k
    (j.z = 0 → q = k)
    ∧ (j.z ≠ 0 → k.z = 0 → q = j)
    ∧ (j.z ≠ 0 → k.z ≠ 0 → U1 ≡ U2 [ZMOD P] → S1 ≡ S2 [ZMOD P] → q = doubleJacobian P j)
    ∧ (j.z ≠ 0 → k.z ≠ 0 → ¬(U1 ≡ U2 [ZMOD P] ∧ S1 ≡ S2 [ZMOD P]) →
        q.x < P ∧ q.y < P ∧ q.z < P
        ∧ (q.x : Int) ≡ r ^ 2 - H * I - 2 * (U1 * I) [ZMOD P]
        ∧ (q.y : Int) ≡ r * (U1 * I - q.x) - 2 * S1 * (H * I) [ZMOD P]
        ∧ (q.z : Int) ≡ (((j.z : Int) + k.z) ^ 2 - (j.z : Int) ^ 2 - (k.z : Int) ^ 2) * H [ZMOD P]
        ∧ (U1 ≡ U2 [ZMOD P] → q.z = 0))

/-- 41 R205: doubleJacobian's results are the residues of the dbl-2001-b polynomials, and Z3 = 0 when Z = 0 or Y ≡ 0. -/
def Obligations.DoubleJacobianFormula : Prop :=
  ∀ (P : Nat) (j : Jac), 3 ≤ P →
    let δ : Int := (j.z : Int) ^ 2
    let γ : Int := (j.y : Int) ^ 2
    let α : Int := 3 * (j.x - δ) * (j.x + δ)
    let β : Int := j.x * γ
    let q := doubleJacobian P j
    q.x < P ∧ q.y < P ∧ q.z < P
    ∧ (q.x : Int) ≡ α ^ 2 - 8 * β [ZMOD P]
    ∧ (q.y : Int) ≡ α * (4 * β - q.x) - 8 * γ ^ 2 [ZMOD P]
    ∧ (q.z : Int) ≡ (j.y + j.z) ^ 2 - γ - δ [ZMOD P]
    ∧ (j.z = 0 ∨ P ∣ j.y → q.z = 0)

/-- 41 R208: PADDJ writes addJacobian of the two triples as they were at acceptance, and never reports NOT_INVERTIBLE; or it
reports BAD_PARAM. -/
def Obligations.PaddjResult : Prop :=
  OpcodeMeans 0x13#6 (fun i => ∃ d a b, i = .paddj d a b) ∧
  ∀ (d a b : Reg) (s : State), isBusy s = false → d.val ≤ 13 → a.val ≤ 13 → b.val ≤ 13 →
    let j : Jac := ⟨(readV s a).toNat, (readV s (a + 1)).toNat, (readV s (a + 2)).toNat⟩
    let k : Jac := ⟨(readV s b).toNat, (readV s (b + 1)).toNat, (readV s (b + 2)).toNat⟩
    let q := addJacobian s.prm.p.toNat j k
    (encode (.paddj d a b)).toNat = 0x13 + 2 ^ 6 * d.val + 2 ^ 10 * a.val + 2 ^ 14 * b.val
    ∧ (paramsOk s = true → ∃ (t : State) (x y z : Big), exec (.paddj d a b) s = .next t
      ∧ x.toNat = q.x ∧ y.toNat = q.y ∧ z.toNat = q.z
      ∧ Finishes t { afterCommand s (encode (.paddj d a b)) .ok false with
          v := setV (setV (setV s.v d x) (d + 1) y) (d + 2) z })
    ∧ (paramsOk s = false → ∃ t, exec (.paddj d a b) s = .next t
      ∧ Finishes t (afterCommand s (encode (.paddj d a b)) .badParam false))

/-- 41 R209: PDBLJ writes doubleJacobian of the triple; or it reports BAD_PARAM. -/
def Obligations.PdbljResult : Prop :=
  OpcodeMeans 0x14#6 (fun i => ∃ d a, i = .pdblj d a) ∧
  ∀ (d a : Reg) (s : State), isBusy s = false → d.val ≤ 13 → a.val ≤ 13 →
    let q := doubleJacobian s.prm.p.toNat ⟨(readV s a).toNat, (readV s (a + 1)).toNat, (readV s (a + 2)).toNat⟩
    (encode (.pdblj d a)).toNat = 0x14 + 2 ^ 6 * d.val + 2 ^ 10 * a.val
    ∧ (paramsOk s = true → ∃ (t : State) (x y z : Big), exec (.pdblj d a) s = .next t
      ∧ x.toNat = q.x ∧ y.toNat = q.y ∧ z.toNat = q.z
      ∧ Finishes t { afterCommand s (encode (.pdblj d a)) .ok false with
          v := setV (setV (setV s.v d x) (d + 1) y) (d + 2) z })
    ∧ (paramsOk s = false → ∃ t, exec (.pdblj d a) s = .next t
      ∧ Finishes t (afterCommand s (encode (.pdblj d a)) .badParam false))

/-- 41 R210: PADD writes affineFromJacobian of addJacobian of the two pairs with the Z that zForAffine gives each, or reports
NOT_INVERTIBLE when that conversion has no inverse; or it reports BAD_PARAM. -/
def Obligations.PaddResult : Prop :=
  OpcodeMeans 0x15#6 (fun i => ∃ d a b, i = .padd d a b) ∧
  ∀ (d a b : Reg) (s : State), isBusy s = false → d.val ≤ 14 → a.val ≤ 14 → b.val ≤ 14 →
    let q : Affine := ⟨(readV s a).toNat, (readV s (a + 1)).toNat⟩
    let r : Affine := ⟨(readV s b).toNat, (readV s (b + 1)).toNat⟩
    let sum := affineFromJacobian s.prm.p.toNat
      (addJacobian s.prm.p.toNat ⟨q.x, q.y, zForAffine q⟩ ⟨r.x, r.y, zForAffine r⟩)
    (encode (.padd d a b)).toNat = 0x15 + 2 ^ 6 * d.val + 2 ^ 10 * a.val + 2 ^ 14 * b.val
    ∧ (paramsOk s = true → ∀ p, sum = some p → ∃ (t : State) (x y : Big), exec (.padd d a b) s = .next t
      ∧ x.toNat = p.x ∧ y.toNat = p.y
      ∧ Finishes t { afterCommand s (encode (.padd d a b)) .ok false with v := setV (setV s.v d x) (d + 1) y })
    ∧ (paramsOk s = true → sum = none → ∃ t, exec (.padd d a b) s = .next t
      ∧ Finishes t (afterCommand s (encode (.padd d a b)) .notInvertible false))
    ∧ (paramsOk s = false → ∃ t, exec (.padd d a b) s = .next t
      ∧ Finishes t (afterCommand s (encode (.padd d a b)) .badParam false))

/-- 41 R211: PDBL writes affineFromJacobian of doubleJacobian of the pair with the Z that zForAffine gives it, or reports
NOT_INVERTIBLE when that conversion has no inverse; or it reports BAD_PARAM. -/
def Obligations.PdblResult : Prop :=
  OpcodeMeans 0x16#6 (fun i => ∃ d a, i = .pdbl d a) ∧
  ∀ (d a : Reg) (s : State), isBusy s = false → d.val ≤ 14 → a.val ≤ 14 →
    let q : Affine := ⟨(readV s a).toNat, (readV s (a + 1)).toNat⟩
    let dbl := affineFromJacobian s.prm.p.toNat (doubleJacobian s.prm.p.toNat ⟨q.x, q.y, zForAffine q⟩)
    (encode (.pdbl d a)).toNat = 0x16 + 2 ^ 6 * d.val + 2 ^ 10 * a.val
    ∧ (paramsOk s = true → ∀ p, dbl = some p → ∃ (t : State) (x y : Big), exec (.pdbl d a) s = .next t
      ∧ x.toNat = p.x ∧ y.toNat = p.y
      ∧ Finishes t { afterCommand s (encode (.pdbl d a)) .ok false with v := setV (setV s.v d x) (d + 1) y })
    ∧ (paramsOk s = true → dbl = none → ∃ t, exec (.pdbl d a) s = .next t
      ∧ Finishes t (afterCommand s (encode (.pdbl d a)) .notInvertible false))
    ∧ (paramsOk s = false → ∃ t, exec (.pdbl d a) s = .next t
      ∧ Finishes t (afterCommand s (encode (.pdbl d a)) .badParam false))

/-- 41 R212 item 1: Double(Q) = Add(Q, Q) for every pair of register values, prime P or not, on the curve or not. -/
def Obligations.DoubleIsSelfSum : Prop := ∀ (P : Nat) (q : Affine), 3 ≤ P → addAffine P q q = doubleAffine P q

/-- 41 R212 item 2: for a prime P and points on the curve, the double and the sum are on the curve whenever they are not the
sentinel. -/
def Obligations.SumsStayOnCurve : Prop :=
  ∀ (P B : Nat) (q r p : Affine), P.Prime → 3 ≤ P → ¬P ∣ B → isOnCurve P B q = true → isOnCurve P B r = true →
    (doubleAffine P q = some p → p ≠ ⟨0, 0⟩ → isOnCurve P B p = true)
    ∧ (addAffine P q r = some p → p ≠ ⟨0, 0⟩ → isOnCurve P B p = true)

/-- 60 R324, 41 R210 and R211, 42 R261: for a prime P, PADD, PDBL, SMUL and SBMUL never report NOT_INVERTIBLE, whatever the
operands are. -/
def Obligations.PrimeNeverNotInvertible : Prop :=
  ∀ (i : Instr) (s t : State), s.prm.p.toNat.Prime → exec i s = .next t →
    ((∃ d a b, i = .padd d a b) ∨ (∃ d a, i = .pdbl d a) ∨ (∃ d a b, i = .smul d a b) ∨ ∃ d a, i = .sbmul d a) →
    (engineStep t).status.err ≠ .notInvertible

/-! ### Scalar multiplication -/

/-- 42 R261: SMUL writes ScalarMult of the pair by the low 8·KLEN bits of the scalar register when KLEN ≤ KBYTES (72 in
version 1.0), or reports NOT_INVERTIBLE when the final conversion has no inverse; KLEN > KBYTES is BAD_SCALAR_LEN; or it reports BAD_PARAM. -/
def Obligations.SmulResult : Prop :=
  OpcodeMeans 0x18#6 (fun i => ∃ d a b, i = .smul d a b) ∧
  ∀ (d a b : Reg) (s : State), isBusy s = false → d.val ≤ 14 → a.val ≤ 14 →
    let res := scalarMult s.prm.p.toNat ⟨(readV s a).toNat, (readV s (a + 1)).toNat⟩ (readV s b).toNat s.klen.toNat
    (encode (.smul d a b)).toNat = 0x18 + 2 ^ 6 * d.val + 2 ^ 10 * a.val + 2 ^ 14 * b.val
    ∧ (paramsOk s = true → s.klen.toNat ≤ Config.scalarBytes s.width → ∀ p, res = some p → ∃ (t : State) (x y : Big),
      exec (.smul d a b) s = .next t ∧ x.toNat = p.x ∧ y.toNat = p.y
      ∧ Finishes t { afterCommand s (encode (.smul d a b)) .ok false with v := setV (setV s.v d x) (d + 1) y })
    ∧ (paramsOk s = true → s.klen.toNat ≤ Config.scalarBytes s.width → res = none → ∃ t, exec (.smul d a b) s = .next t
      ∧ Finishes t (afterCommand s (encode (.smul d a b)) .notInvertible false))
    ∧ (paramsOk s = true → Config.scalarBytes s.width < s.klen.toNat → ∃ t, exec (.smul d a b) s = .next t
      ∧ Finishes t (afterCommand s (encode (.smul d a b)) .badScalarLen false))
    ∧ (paramsOk s = false → ∃ t, exec (.smul d a b) s = .next t
      ∧ Finishes t (afterCommand s (encode (.smul d a b)) .badParam false))

/-- 42 R262: SBMUL is SMUL with (PRM.GX, PRM.GY) for the operand. -/
def Obligations.SbmulResult : Prop :=
  OpcodeMeans 0x19#6 (fun i => ∃ d a, i = .sbmul d a) ∧
  ∀ (d a : Reg) (s : State), isBusy s = false → d.val ≤ 14 →
    let res := scalarMult s.prm.p.toNat ⟨s.prm.gx.toNat, s.prm.gy.toNat⟩ (readV s a).toNat s.klen.toNat
    (encode (.sbmul d a)).toNat = 0x19 + 2 ^ 6 * d.val + 2 ^ 10 * a.val
    ∧ (paramsOk s = true → s.klen.toNat ≤ Config.scalarBytes s.width → ∀ p, res = some p → ∃ (t : State) (x y : Big),
      exec (.sbmul d a) s = .next t ∧ x.toNat = p.x ∧ y.toNat = p.y
      ∧ Finishes t { afterCommand s (encode (.sbmul d a)) .ok false with v := setV (setV s.v d x) (d + 1) y })
    ∧ (paramsOk s = true → s.klen.toNat ≤ Config.scalarBytes s.width → res = none → ∃ t, exec (.sbmul d a) s = .next t
      ∧ Finishes t (afterCommand s (encode (.sbmul d a)) .notInvertible false))
    ∧ (paramsOk s = true → Config.scalarBytes s.width < s.klen.toNat → ∃ t, exec (.sbmul d a) s = .next t
      ∧ Finishes t (afterCommand s (encode (.sbmul d a)) .badScalarLen false))
    ∧ (paramsOk s = false → ∃ t, exec (.sbmul d a) s = .next t
      ∧ Finishes t (afterCommand s (encode (.sbmul d a)) .badParam false))

/-- 42 R260: the loop reads the bits of the scalar from the most significant down: for n more bits it does what it does for
the top bit (double, then add the operand with Z = 1 first when the bit is 1) and then for the n others; it starts from
(0, 0, 0) and ends with the conversion, and KLEN = 0 gives (0, 0). -/
def Obligations.ScalarMultLoop : Prop :=
  ∀ (P : Nat) (q : Affine) (k : Nat), 3 ≤ P →
    scalarMult P q k 0 = some ⟨0, 0⟩
    ∧ ∀ klen, ∃ acc : Nat → Jac,
        acc (8 * klen) = ⟨0, 0, 0⟩
        ∧ (∀ n < 8 * klen, acc n =
            if k / 2 ^ n % 2 = 1 then addJacobian P ⟨q.x, q.y, 1⟩ (doubleJacobian P (acc (n + 1)))
            else doubleJacobian P (acc (n + 1)))
        ∧ scalarMult P q k klen = affineFromJacobian P (acc 0)

/-- 42 R260, R263 item 3: only the low 8·KLEN bits of the scalar register are read, and KLEN changes only how many leading
zero bits are processed. -/
def Obligations.ScalarLength : Prop :=
  ∀ (P : Nat) (q : Affine) (k : Nat), 3 ≤ P →
    (∀ klen, scalarMult P q (k % 256 ^ klen) klen = scalarMult P q k klen)
    ∧ (∀ n m, k < 256 ^ n → n ≤ m → scalarMult P q k m = scalarMult P q k n)

/-- 42 R260: the operand (0, 0) gives (0, 0) for every scalar and length, although its Z is 1. -/
def Obligations.ScalarOfSentinel : Prop :=
  ∀ P k klen : Nat, 3 ≤ P → scalarMult P ⟨0, 0⟩ k klen = some ⟨0, 0⟩

/-- 42 R263: for a prime P and a non-singular point Q = (x, y) of the curve with reduced coordinates, ScalarMult is the
multiple k·Q in the group of the curve: the sentinel when k·Q is the point at infinity, else the reduced coordinates of
k·Q. -/
def Obligations.ScalarMultIsGroupMultiple : Prop :=
  ∀ (P B : Nat) [Fact P.Prime] (q : Affine) (k klen : Nat), 3 ≤ P → q.x < P → q.y < P → k < 256 ^ klen →
    ∀ h : (⟨0, 0, 0, -3, B⟩ : WeierstrassCurve (ZMod P)).toAffine.Nonsingular (q.x : ZMod P) (q.y : ZMod P),
      ∃ r : Affine, scalarMult P q k klen = some r ∧ r.x < P ∧ r.y < P
        ∧ (match k • (WeierstrassCurve.Affine.Point.some _ _ h) with
            | .zero => r = ⟨0, 0⟩
            | .some x y _ => x = (r.x : ZMod P) ∧ y = (r.y : ZMod P))

/-! ### Codec -/

/-- 43 R291: PENC writes the tag 4, then x and y as byteLen big-endian bytes each, to BUF[0 .. 2·byteLen], and 1 + 2·byteLen
to CODEC_LEN, when both coordinates fit in byteLen bytes; else it reports RANGE; or it reports BAD_PARAM. Every byte above
keeps its value. -/
def Obligations.PencResult : Prop :=
  OpcodeMeans 0x1C#6 (fun i => ∃ a, i = .penc a) ∧
  ∀ (a : Reg) (s : State), isBusy s = false → a.val ≤ 14 →
    let n := (s.bitsize.toNat + 7) / 8
    let x := (readV s a).toNat
    let y := (readV s (a + 1)).toNat
    (encode (.penc a)).toNat = 0x1C + 2 ^ 10 * a.val
    ∧ (paramsOk s = true → x < 256 ^ n → y < 256 ^ n → ∃ (t : State) (m : Memory), exec (.penc a) s = .next t
      ∧ Memory.read m 0 = some 4#8
      ∧ (∀ i < n, Memory.read m (1 + i) = some (BitVec.ofNat 8 (x / 256 ^ (n - 1 - i))))
      ∧ (∀ i < n, Memory.read m (1 + n + i) = some (BitVec.ofNat 8 (y / 256 ^ (n - 1 - i))))
      ∧ (∀ i, 1 + 2 * n ≤ i → Memory.read m i = Memory.read s.buf i)
      ∧ Finishes t { afterCommand s (encode (.penc a)) .ok false with
          buf := m, codecLen := BitVec.ofNat 16 (1 + 2 * n) })
    ∧ (paramsOk s = true → (256 ^ n ≤ x ∨ 256 ^ n ≤ y) → ∃ t, exec (.penc a) s = .next t
      ∧ Finishes t (afterCommand s (encode (.penc a)) .range false))
    ∧ (paramsOk s = false → ∃ t, exec (.penc a) s = .next t
      ∧ Finishes t (afterCommand s (encode (.penc a)) .badParam false))

/-- 43 R292: PDEC with a CODEC_LEN other than 1 + 2·byteLen, or with a tag other than 4, completes with RES = 0 and writes no
register; else, when the bytes hold values, it writes the big-endian integers of BUF[1 .. n] and BUF[1+n .. 2n] and RES = 1;
or it reports BAD_PARAM. -/
def Obligations.PdecResult : Prop :=
  OpcodeMeans 0x1D#6 (fun i => ∃ d, i = .pdec d) ∧
  ∀ (d : Reg) (s : State), isBusy s = false → d.val ≤ 14 →
    let n := (s.bitsize.toNat + 7) / 8
    (encode (.pdec d)).toNat = 0x1D + 2 ^ 6 * d.val
    ∧ (paramsOk s = true → s.codecLen.toNat ≠ 1 + 2 * n → ∃ t, exec (.pdec d) s = .next t
      ∧ Finishes t (afterCommand s (encode (.pdec d)) .ok false))
    ∧ (paramsOk s = true → s.codecLen.toNat = 1 + 2 * n →
      ∀ tag, Memory.read s.buf 0 = some tag → tag ≠ 4#8 → ∃ t, exec (.pdec d) s = .next t
      ∧ Finishes t (afterCommand s (encode (.pdec d)) .ok false))
    ∧ (paramsOk s = true → s.codecLen.toNat = 1 + 2 * n → Memory.read s.buf 0 = some 4#8 →
      ∀ bx byy : List Byte, bx.length = n → byy.length = n →
      (∀ i < n, Memory.read s.buf (1 + i) = bx[i]?) → (∀ i < n, Memory.read s.buf (1 + n + i) = byy[i]?) →
      ∃ (t : State) (x y : Big), exec (.pdec d) s = .next t
      ∧ x.toNat = ∑ i ∈ Finset.range n, (bx.getD i 0).toNat * 256 ^ (n - 1 - i)
      ∧ y.toNat = ∑ i ∈ Finset.range n, (byy.getD i 0).toNat * 256 ^ (n - 1 - i)
      ∧ Finishes t { afterCommand s (encode (.pdec d)) .ok true with v := setV (setV s.v d x) (d + 1) y })
    ∧ (paramsOk s = false → ∃ t, exec (.pdec d) s = .next t
      ∧ Finishes t (afterCommand s (encode (.pdec d)) .badParam false))

/-- 10 R48, 60 R340 item 1: a PDEC that passes its checks and reads a BUF byte that holds no value stops with a fault that
names the first such byte; a byte it does not reach is not read. -/
def Obligations.PdecStopsOnUnwrittenByte : Prop :=
  ∀ (d : Reg) (s : State), isBusy s = false → d.val ≤ 14 → paramsOk s = true → s.codecLen.toNat = 1 + 2 * byteLen s →
    (Memory.read s.buf 0 = none → exec (.pdec d) s = .fault (.bufByteUnwritten 0))
    ∧ (Memory.read s.buf 0 = some 4#8 →
        ∀ m, 1 ≤ m → m ≤ 2 * byteLen s → Memory.read s.buf m = none → (∀ j, 1 ≤ j → j < m → Memory.read s.buf j ≠ none) →
        exec (.pdec d) s = .fault (.bufByteUnwritten m))

/-- 43 R293: PENC of a pair whose coordinates fit in byteLen bytes, followed by PDEC into any pair, gives RES = 1 and the
pair back. -/
def Obligations.CodecRoundTrip : Prop :=
  ∀ (a d : Reg) (s : State), Ready s → a.val ≤ 14 → d.val ≤ 14 →
    (readV s a).toNat < 256 ^ byteLen s → (readV s (a + 1)).toNat < 256 ^ byteLen s →
    ∃ t t', exec (.penc a) s = .next t ∧ exec (.pdec d) (engineStep t) = .next t'
      ∧ (engineStep t').status.err = .ok ∧ (engineStep t').status.res = true
      ∧ readV (engineStep t') d = readV s a ∧ readV (engineStep t') (d + 1) = readV s (a + 1)

/-! ### The whole machine -/

/-- The invariant of Safety.lean (10 R30, R33, R41, 60 R320, R326, R327): every step that answers a next state keeps it,
whatever the width, the state and the schedule. -/
def Obligations.StepKeepsInv : Prop := ∀ s t : State, Inv s → step s = .next t → Inv t

/-- The invariant holds after power-on reset, at every width and every aligned window; and that state is a clean entry for
every host program placed in it, with no register and no BUF byte relied on (70 R384). -/
def Obligations.ResetHasInv : Prop :=
  Inv State.reset
  ∧ ∀ (w : Width) (base : Nat) (prog : List BusEvent), 0x4000 ∣ base →
    Inv { State.resetAt w base with inputs := prog }
    ∧ CleanEntry prog ⟨[], [], []⟩ { State.resetAt w base with inputs := prog }

/-- 70 R380, 00 R8: after power-on reset the engine is IDLE, ID and CFG read their constants, every other CSR reads 0, irq is 0
and no byte of BUF holds a value, at every width and window address; State.reset is the block of version 1.0, and the step of a
power-on event leaves such a state. The parameters NW, KBYTES, BUFBYTES and BUFWORDS are those R8 gives of W, and the legal W
are exactly the multiples of 32 from 64 to 1024. (The contents of V and PRM at reset are the model's choice, log 1, and
nothing is said of them.) -/
def Obligations.PowerOnReset : Prop :=
  (∃ base, State.reset = State.resetAt Config.ecCore10 base) ∧ readTarget .cfg State.reset = 0x00100240#32
  ∧ (∀ (s : State) (rest : List BusEvent), s.inputs = .powerOn :: rest →
      step s = .next { State.resetAt s.width s.base with inputs := rest, rdata := s.rdata, draws := s.draws })
  ∧ (∀ (w : Width) (base : Nat),
      isBusy (State.resetAt w base) = false
      ∧ readTarget .id (State.resetAt w base) = 0x45430100#32
      ∧ (readTarget .cfg (State.resetAt w base)).toNat = 2 ^ 16 * 16 + Config.wBits w
      ∧ (∀ tg ∈ [Target.ctrl, .cmd, .status, .irqen, .bitsize, .klen, .codecLen],
          readTarget tg (State.resetAt w base) = 0#32)
      ∧ irq (State.resetAt w base) = false
      ∧ (State.resetAt w base).width = w ∧ (State.resetAt w base).base = base
      ∧ ∀ a, Memory.read (State.resetAt w base).buf a = none)
  ∧ (∀ n, (∃ w, Config.wBits w = n) ↔ n % 32 = 0 ∧ 64 ≤ n ∧ n ≤ 1024)
  ∧ ∀ w : Width, Config.bigWords w = Config.wBits w / 32 ∧ Config.scalarBytes w = Config.wBits w / 8
      ∧ Config.bufBytes w % 4 = 0 ∧ 1 + 2 * (Config.wBits w / 8) ≤ Config.bufBytes w
      ∧ Config.bufBytes w < 1 + 2 * (Config.wBits w / 8) + 4 ∧ Config.bufWords w = Config.bufBytes w / 4

/-- 60 R340, 20 R92: only two things stop a step: a PDEC, accepted by this step's write to CMD, that passes its checks and reads
a BUF byte holding no value (a fault that names the byte), and an access inside the window of another width than 4 bytes (a
refusal that names the width). 70 R385, R392: a run that meets neither has an end state, in which the host has made its last
access and the engine is IDLE, and which no further step changes. -/
def Obligations.OnlyStops : Prop :=
  ∀ s : State,
    (∀ f, step s = .fault f → ∃ n d, f = .bufByteUnwritten n ∧ n < s.codecLen.toNat ∧ Memory.read s.buf n = none
      ∧ paramsOk s = true ∧ s.codecLen.toNat = 1 + 2 * byteLen s ∧ isBusy s = false
      ∧ ∃ address rest, s.inputs = .write address 4 (encode (.pdec d)) :: rest
        ∧ s.base + 0x00C ≤ address ∧ address < s.base + 0x010)
    ∧ (∀ r, step s = .refused r → ∃ n address rest w, r = .accessWidth n ∧ n ≠ 4
      ∧ (s.inputs = .read address n :: rest ∨ s.inputs = .write address n w :: rest)
      ∧ s.base ≤ address ∧ address < s.base + 0x4000)
    ∧ (∀ e, wholeRun s = .next e → runOver e = true ∧ e.inputs = [] ∧ isBusy e = false ∧ step e = .next e)
end

