-- ==== Sys2Proof/Laws/Encoding.lean ====
section
/-! SUPPORT. The fields of an assembled word (30 R121). -/
namespace Sys2Proof

@[simp] theorem unlessProblem_eq_ok (p : Option Illegal) (i j : Instr) :
    unlessProblem p i = .ok j ↔ p = none ∧ i = j := by
  cases p <;> simp [unlessProblem]

@[simp] theorem unlessProblem_eq_error (p : Option Illegal) (i : Instr) (e : Illegal) :
    unlessProblem p i = .error e ↔ p = some e := by
  cases p <;> simp [unlessProblem]

/-- A word as the sum of its shifted fields: `OPC | RD << 6 | RA << 10 | RB << 14` (30 R121). -/
theorem assemble_toNat (opc : BitVec 6) (d a b : Reg) :
    (assemble opc d a b).toNat = opc.toNat + 2 ^ 6 * d.val + 2 ^ 10 * a.val + 2 ^ 14 * b.val := by
  have h1 := opc.isLt
  have h2 := d.isLt
  have h3 := a.isLt
  have h4 := b.isLt
  have e : ∀ x n y : Nat, y < 2 ^ n → x <<< n ||| y = x * 2 ^ n + y := by
    intro x n y h
    rw [← Nat.shiftLeft_add_eq_or_of_lt h, Nat.shiftLeft_eq]
  simp only [assemble, BitVec.toNat_append, BitVec.toNat_ofFin, BitVec.toNat_ofNat]
  rw [e _ 4 _ (by omega), e _ 4 _ (by omega), e _ 4 _ (by omega), e _ 6 _ (by omega)]
  omega

/-- The reserved bits of an assembled word are 0. -/
@[simp] theorem assemble_reserved (opc : BitVec 6) (d a b : Reg) : (assemble opc d a b).extractLsb' 18 14 = 0#14 := by
  have h := assemble_toNat opc d a b
  have h1 := opc.isLt
  apply BitVec.eq_of_toNat_eq
  simp only [BitVec.extractLsb'_toNat, h, Nat.shiftRight_eq_div_pow, BitVec.toNat_ofNat]
  omega

@[simp] theorem assemble_opcode (opc : BitVec 6) (d a b : Reg) : (assemble opc d a b).extractLsb' 0 6 = opc := by
  have h := assemble_toNat opc d a b
  have h1 := opc.isLt
  apply BitVec.eq_of_toNat_eq
  simp only [BitVec.extractLsb'_toNat, h, Nat.shiftRight_eq_div_pow]
  omega

/-- The opcode field of an instruction's word (30 R126). -/
@[simp] theorem encode_opcode (i : Instr) : (encode i).extractLsb' 0 6 = i.opcode := by
  cases i <;> exact assemble_opcode _ _ _ _

@[simp] theorem assemble_rd (opc : BitVec 6) (d a b : Reg) : regField (assemble opc d a b) 6 = d := by
  have h := assemble_toNat opc d a b
  have h1 := opc.isLt
  apply Fin.ext
  simp only [regField, BitVec.extractLsb'_toNat, h, Nat.shiftRight_eq_div_pow]
  omega

@[simp] theorem assemble_ra (opc : BitVec 6) (d a b : Reg) : regField (assemble opc d a b) 10 = a := by
  have h := assemble_toNat opc d a b
  have h1 := opc.isLt
  apply Fin.ext
  simp only [regField, BitVec.extractLsb'_toNat, h, Nat.shiftRight_eq_div_pow]
  omega

@[simp] theorem assemble_rb (opc : BitVec 6) (d a b : Reg) : regField (assemble opc d a b) 14 = b := by
  have h := assemble_toNat opc d a b
  have h1 := opc.isLt
  apply Fin.ext
  simp only [regField, BitVec.extractLsb'_toNat, h, Nat.shiftRight_eq_div_pow]
  omega

/-- A word with its reserved bits 0 is its fields put together. -/
theorem assemble_fields (w : Word) (h : w.extractLsb' 18 14 = 0#14) :
    assemble (w.extractLsb' 0 6) (regField w 6) (regField w 10) (regField w 14) = w := by
  apply BitVec.eq_of_toNat_eq
  rw [assemble_toNat]
  have h1 := congrArg BitVec.toNat h
  have h2 := w.isLt
  simp only [regField, BitVec.extractLsb'_toNat, Nat.shiftRight_eq_div_pow, BitVec.toNat_ofNat] at *
  omega

end Sys2Proof
end

