-- ==== Sys2Proof/Laws/Residue.lean ====
section
/-! SUPPORT. The Euclidean residue and the inverse: what they are, once. -/
namespace Sys2Proof.Machine

/-- A residue as an integer. -/
theorem coe_modP {m : Nat} (hm : 0 < m) (x : Int) : ((modP m x : Nat) : Int) = x % m := by
  have : 0 ≤ x % (m : Int) := Int.emod_nonneg _ (by omega)
  simp [modP, this]

theorem modP_lt {m : Nat} (hm : 0 < m) (x : Int) : modP m x < m := by
  have h := Int.emod_lt_of_pos x (show (0 : Int) < m by omega)
  have := coe_modP hm x
  omega

/-- A residue is congruent to its integer. -/
theorem modP_modEq {m : Nat} (hm : 0 < m) (x : Int) : ((modP m x : Nat) : Int) ≡ x [ZMOD m] := by
  rw [coe_modP hm]; exact Int.mod_modEq _ _

/-- The residue of a natural number. -/
theorem modP_natCast (m x : Nat) : modP m (x : Int) = x % m := by
  rw [modP, ← Int.natCast_mod, Int.toNat_natCast]

/-- Equal residues are congruence. -/
theorem modP_eq_iff {m : Nat} (hm : 0 < m) (x y : Int) : modP m x = modP m y ↔ x ≡ y [ZMOD m] := by
  rw [← Int.natCast_inj, coe_modP hm, coe_modP hm]; rfl

/-- The loop's invariant: with t0·r ≡ r0 and t1·r ≡ r1, enough divisions end in a coefficient of the gcd. -/
theorem euclid_spec (m r : Nat) (n r0 r1 : Nat) (t0 t1 : Int) (hn : r1 < n)
    (h0 : t0 * r ≡ r0 [ZMOD m]) (h1 : t1 * r ≡ r1 [ZMOD m]) :
    euclid n r0 r1 t0 t1 * r ≡ Nat.gcd r0 r1 [ZMOD m] := by
  induction n generalizing r0 r1 t0 t1 with
  | zero => omega
  | succ n ih =>
    simp only [euclid]
    split
    · rename_i h; subst h; simpa using h0
    · rename_i h
      have hlt : r0 % r1 < r1 := Nat.mod_lt _ (by omega)
      rw [Nat.gcd_comm r0 r1, Nat.gcd_rec r1 r0, Nat.gcd_comm]
      refine ih r1 (r0 % r1) _ _ (by omega) h1 ?_
      have e : ((r0 % r1 : Nat) : Int) = r0 - ((r0 / r1 : Nat) : Int) * r1 := by
        have := Nat.div_add_mod r0 r1
        have : (r0 : Int) = r1 * ((r0 / r1 : Nat) : Int) + ((r0 % r1 : Nat) : Int) := by exact_mod_cast this.symm
        linarith
      rw [e, sub_mul, mul_assoc]
      exact h0.sub (h1.mul_left _)

/-- What the inverse is: the y below m with a·y ≡ 1, exactly when gcd(a mod m, m) = 1. -/
theorem inverse_eq_some {m a y : Nat} (hm : 1 < m) (h : inverse m a = some y) : y < m ∧ a * y % m = 1 := by
  unfold inverse at h
  simp only at h
  split at h
  · rename_i hg
    cases h
    have hlt : a % m < m := Nat.mod_lt _ (by omega)
    refine ⟨modP_lt (by omega) _, ?_⟩
    have hs := euclid_spec m (a % m) m m (a % m) 0 1 hlt (by simp [Int.ModEq]) (by simp)
    rw [Nat.gcd_comm, hg] at hs
    have h2 : ((a * modP m (euclid m m (a % m) 0 1) : Nat) : Int) ≡ 1 [ZMOD m] := by
      push_cast
      refine ((Int.ModEq.refl (a : Int)).mul (modP_modEq (by omega) _)).trans ?_
      refine Int.ModEq.trans ?_ hs
      rw [mul_comm]
      exact Int.ModEq.mul_left _ (by rw [Int.natCast_mod]; exact (Int.mod_modEq _ _).symm)
    have h3 : a * modP m (euclid m m (a % m) 0 1) ≡ 1 [MOD m] := Int.natCast_modEq_iff.1 (by exact_mod_cast h2)
    simpa [Nat.ModEq, Nat.mod_eq_of_lt hm] using h3
  · cases h

theorem inverse_eq_none_iff (m a : Nat) : inverse m a = none ↔ Nat.gcd (a % m) m ≠ 1 := by
  simp only [inverse]; split <;> simp_all

end Sys2Proof.Machine
end

