-- ==== Sys2Proof/Laws/State.lean ====
section
/-! SUPPORT. One lemma per field of State per named update, so that no proof unfolds a record update. -/
namespace Sys2Proof.Machine

/-! ### accept -/
@[simp] theorem accept_v (c : Word) (p : Pending) (s : State) : (accept c p s).v = s.v := rfl
@[simp] theorem accept_prm (c : Word) (p : Pending) (s : State) : (accept c p s).prm = s.prm := rfl
@[simp] theorem accept_buf (c : Word) (p : Pending) (s : State) : (accept c p s).buf = s.buf := rfl
@[simp] theorem accept_cmd (c : Word) (p : Pending) (s : State) : (accept c p s).cmd = c := rfl
@[simp] theorem accept_status (c : Word) (p : Pending) (s : State) : (accept c p s).status = ⟨.ok, s.status.busywr, false, false⟩ := rfl
@[simp] theorem accept_doneIe (c : Word) (p : Pending) (s : State) : (accept c p s).doneIe = s.doneIe := rfl
@[simp] theorem accept_bitsize (c : Word) (p : Pending) (s : State) : (accept c p s).bitsize = s.bitsize := rfl
@[simp] theorem accept_klen (c : Word) (p : Pending) (s : State) : (accept c p s).klen = s.klen := rfl
@[simp] theorem accept_codecLen (c : Word) (p : Pending) (s : State) : (accept c p s).codecLen = s.codecLen := rfl
@[simp] theorem accept_engine (c : Word) (p : Pending) (s : State) : (accept c p s).engine = .busy p := rfl
@[simp] theorem accept_base (c : Word) (p : Pending) (s : State) : (accept c p s).base = s.base := rfl
@[simp] theorem accept_width (c : Word) (p : Pending) (s : State) : (accept c p s).width = s.width := rfl
@[simp] theorem accept_inputs (c : Word) (p : Pending) (s : State) : (accept c p s).inputs = s.inputs := rfl
@[simp] theorem accept_rdata (c : Word) (p : Pending) (s : State) : (accept c p s).rdata = s.rdata := rfl
@[simp] theorem accept_draws (c : Word) (p : Pending) (s : State) : (accept c p s).draws = s.draws := rfl

/-! ### lostWrite -/
@[simp] theorem lostWrite_v (s : State) : (lostWrite s).v = s.v := rfl
@[simp] theorem lostWrite_prm (s : State) : (lostWrite s).prm = s.prm := rfl
@[simp] theorem lostWrite_buf (s : State) : (lostWrite s).buf = s.buf := rfl
@[simp] theorem lostWrite_cmd (s : State) : (lostWrite s).cmd = s.cmd := rfl
@[simp] theorem lostWrite_status (s : State) : (lostWrite s).status = { s.status with busywr := true } := rfl
@[simp] theorem lostWrite_doneIe (s : State) : (lostWrite s).doneIe = s.doneIe := rfl
@[simp] theorem lostWrite_bitsize (s : State) : (lostWrite s).bitsize = s.bitsize := rfl
@[simp] theorem lostWrite_klen (s : State) : (lostWrite s).klen = s.klen := rfl
@[simp] theorem lostWrite_codecLen (s : State) : (lostWrite s).codecLen = s.codecLen := rfl
@[simp] theorem lostWrite_engine (s : State) : (lostWrite s).engine = s.engine := rfl
@[simp] theorem lostWrite_base (s : State) : (lostWrite s).base = s.base := rfl
@[simp] theorem lostWrite_width (s : State) : (lostWrite s).width = s.width := rfl
@[simp] theorem lostWrite_inputs (s : State) : (lostWrite s).inputs = s.inputs := rfl
@[simp] theorem lostWrite_rdata (s : State) : (lostWrite s).rdata = s.rdata := rfl
@[simp] theorem lostWrite_draws (s : State) : (lostWrite s).draws = s.draws := rfl

/-! ### softReset -/
@[simp] theorem softReset_v (s : State) : (softReset s).v = s.v := rfl
@[simp] theorem softReset_prm (s : State) : (softReset s).prm = s.prm := rfl
@[simp] theorem softReset_buf (s : State) : (softReset s).buf = s.buf := rfl
@[simp] theorem softReset_cmd (s : State) : (softReset s).cmd = 0#32 := rfl
@[simp] theorem softReset_status (s : State) : (softReset s).status = ⟨.ok, false, false, false⟩ := rfl
@[simp] theorem softReset_doneIe (s : State) : (softReset s).doneIe = false := rfl
@[simp] theorem softReset_bitsize (s : State) : (softReset s).bitsize = 0#16 := rfl
@[simp] theorem softReset_klen (s : State) : (softReset s).klen = 0#8 := rfl
@[simp] theorem softReset_codecLen (s : State) : (softReset s).codecLen = 0#16 := rfl
@[simp] theorem softReset_engine (s : State) : (softReset s).engine = .idle := rfl
@[simp] theorem softReset_base (s : State) : (softReset s).base = s.base := rfl
@[simp] theorem softReset_width (s : State) : (softReset s).width = s.width := rfl
@[simp] theorem softReset_inputs (s : State) : (softReset s).inputs = s.inputs := rfl
@[simp] theorem softReset_rdata (s : State) : (softReset s).rdata = s.rdata := rfl
@[simp] theorem softReset_draws (s : State) : (softReset s).draws = s.draws := rfl

/-! ### clearStatus -/
@[simp] theorem clearStatus_v (w : Word) (s : State) : (clearStatus w s).v = s.v := rfl
@[simp] theorem clearStatus_prm (w : Word) (s : State) : (clearStatus w s).prm = s.prm := rfl
@[simp] theorem clearStatus_buf (w : Word) (s : State) : (clearStatus w s).buf = s.buf := rfl
@[simp] theorem clearStatus_cmd (w : Word) (s : State) : (clearStatus w s).cmd = s.cmd := rfl
@[simp] theorem clearStatus_status (w : Word) (s : State) : (clearStatus w s).status = ⟨s.status.err, s.status.busywr && !w.getLsbD 3, s.status.res, s.status.done && !w.getLsbD 1⟩ := rfl
@[simp] theorem clearStatus_doneIe (w : Word) (s : State) : (clearStatus w s).doneIe = s.doneIe := rfl
@[simp] theorem clearStatus_bitsize (w : Word) (s : State) : (clearStatus w s).bitsize = s.bitsize := rfl
@[simp] theorem clearStatus_klen (w : Word) (s : State) : (clearStatus w s).klen = s.klen := rfl
@[simp] theorem clearStatus_codecLen (w : Word) (s : State) : (clearStatus w s).codecLen = s.codecLen := rfl
@[simp] theorem clearStatus_engine (w : Word) (s : State) : (clearStatus w s).engine = s.engine := rfl
@[simp] theorem clearStatus_base (w : Word) (s : State) : (clearStatus w s).base = s.base := rfl
@[simp] theorem clearStatus_width (w : Word) (s : State) : (clearStatus w s).width = s.width := rfl
@[simp] theorem clearStatus_inputs (w : Word) (s : State) : (clearStatus w s).inputs = s.inputs := rfl
@[simp] theorem clearStatus_rdata (w : Word) (s : State) : (clearStatus w s).rdata = s.rdata := rfl
@[simp] theorem clearStatus_draws (w : Word) (s : State) : (clearStatus w s).draws = s.draws := rfl

/-! ### readEffect -/
@[simp] theorem readEffect_v (t : Target) (s : State) : (readEffect t s).v = s.v := rfl
@[simp] theorem readEffect_prm (t : Target) (s : State) : (readEffect t s).prm = s.prm := rfl
@[simp] theorem readEffect_buf (t : Target) (s : State) : (readEffect t s).buf = s.buf := rfl
@[simp] theorem readEffect_cmd (t : Target) (s : State) : (readEffect t s).cmd = s.cmd := rfl
@[simp] theorem readEffect_status (t : Target) (s : State) : (readEffect t s).status = s.status := rfl
@[simp] theorem readEffect_doneIe (t : Target) (s : State) : (readEffect t s).doneIe = s.doneIe := rfl
@[simp] theorem readEffect_bitsize (t : Target) (s : State) : (readEffect t s).bitsize = s.bitsize := rfl
@[simp] theorem readEffect_klen (t : Target) (s : State) : (readEffect t s).klen = s.klen := rfl
@[simp] theorem readEffect_codecLen (t : Target) (s : State) : (readEffect t s).codecLen = s.codecLen := rfl
@[simp] theorem readEffect_engine (t : Target) (s : State) : (readEffect t s).engine = s.engine := rfl
@[simp] theorem readEffect_base (t : Target) (s : State) : (readEffect t s).base = s.base := rfl
@[simp] theorem readEffect_width (t : Target) (s : State) : (readEffect t s).width = s.width := rfl
@[simp] theorem readEffect_inputs (t : Target) (s : State) : (readEffect t s).inputs = s.inputs := rfl
@[simp] theorem readEffect_rdata (t : Target) (s : State) : (readEffect t s).rdata = some (readTarget t s) := rfl
@[simp] theorem readEffect_draws (t : Target) (s : State) : (readEffect t s).draws = s.draws + drawsOf t s := rfl

/-! ### afterCommand -/
@[simp] theorem afterCommand_v (s : State) (c : Word) (e : Err) (b : Bool) :
    (afterCommand s c e b).v = s.v := rfl
@[simp] theorem afterCommand_prm (s : State) (c : Word) (e : Err) (b : Bool) :
    (afterCommand s c e b).prm = s.prm := rfl
@[simp] theorem afterCommand_buf (s : State) (c : Word) (e : Err) (b : Bool) :
    (afterCommand s c e b).buf = s.buf := rfl
@[simp] theorem afterCommand_cmd (s : State) (c : Word) (e : Err) (b : Bool) :
    (afterCommand s c e b).cmd = c := rfl
@[simp] theorem afterCommand_status (s : State) (c : Word) (e : Err) (b : Bool) :
    (afterCommand s c e b).status = ⟨e, s.status.busywr, b, true⟩ := rfl
@[simp] theorem afterCommand_doneIe (s : State) (c : Word) (e : Err) (b : Bool) :
    (afterCommand s c e b).doneIe = s.doneIe := rfl
@[simp] theorem afterCommand_bitsize (s : State) (c : Word) (e : Err) (b : Bool) :
    (afterCommand s c e b).bitsize = s.bitsize := rfl
@[simp] theorem afterCommand_klen (s : State) (c : Word) (e : Err) (b : Bool) :
    (afterCommand s c e b).klen = s.klen := rfl
@[simp] theorem afterCommand_codecLen (s : State) (c : Word) (e : Err) (b : Bool) :
    (afterCommand s c e b).codecLen = s.codecLen := rfl
@[simp] theorem afterCommand_engine (s : State) (c : Word) (e : Err) (b : Bool) :
    (afterCommand s c e b).engine = .idle := rfl
@[simp] theorem afterCommand_base (s : State) (c : Word) (e : Err) (b : Bool) :
    (afterCommand s c e b).base = s.base := rfl
@[simp] theorem afterCommand_width (s : State) (c : Word) (e : Err) (b : Bool) :
    (afterCommand s c e b).width = s.width := rfl
@[simp] theorem afterCommand_inputs (s : State) (c : Word) (e : Err) (b : Bool) :
    (afterCommand s c e b).inputs = s.inputs := rfl
@[simp] theorem afterCommand_rdata (s : State) (c : Word) (e : Err) (b : Bool) :
    (afterCommand s c e b).rdata = s.rdata := rfl
@[simp] theorem afterCommand_draws (s : State) (c : Word) (e : Err) (b : Bool) :
    (afterCommand s c e b).draws = s.draws := rfl

/-! ### powerOnReset -/
@[simp] theorem powerOnReset_v (s : State) : (powerOnReset s).v = State.reset.v := rfl
@[simp] theorem powerOnReset_prm (s : State) : (powerOnReset s).prm = State.reset.prm := rfl
@[simp] theorem powerOnReset_buf (s : State) : (powerOnReset s).buf = State.reset.buf := rfl
@[simp] theorem powerOnReset_cmd (s : State) : (powerOnReset s).cmd = State.reset.cmd := rfl
@[simp] theorem powerOnReset_status (s : State) : (powerOnReset s).status = State.reset.status := rfl
@[simp] theorem powerOnReset_doneIe (s : State) : (powerOnReset s).doneIe = State.reset.doneIe := rfl
@[simp] theorem powerOnReset_bitsize (s : State) : (powerOnReset s).bitsize = State.reset.bitsize := rfl
@[simp] theorem powerOnReset_klen (s : State) : (powerOnReset s).klen = State.reset.klen := rfl
@[simp] theorem powerOnReset_codecLen (s : State) : (powerOnReset s).codecLen = State.reset.codecLen := rfl
@[simp] theorem powerOnReset_engine (s : State) : (powerOnReset s).engine = State.reset.engine := rfl
@[simp] theorem powerOnReset_base (s : State) : (powerOnReset s).base = s.base := rfl
@[simp] theorem powerOnReset_width (s : State) : (powerOnReset s).width = s.width := rfl
@[simp] theorem powerOnReset_inputs (s : State) : (powerOnReset s).inputs = s.inputs := rfl
@[simp] theorem powerOnReset_rdata (s : State) : (powerOnReset s).rdata = s.rdata := rfl
@[simp] theorem powerOnReset_draws (s : State) : (powerOnReset s).draws = s.draws := rfl

/-! ### complete -/
@[simp] theorem complete_prm (p : Pending) (s : State) : (complete p s).prm = s.prm := by
  unfold complete; split <;> rfl
@[simp] theorem complete_cmd (p : Pending) (s : State) : (complete p s).cmd = s.cmd := by
  unfold complete; split <;> rfl
@[simp] theorem complete_doneIe (p : Pending) (s : State) : (complete p s).doneIe = s.doneIe := by
  unfold complete; split <;> rfl
@[simp] theorem complete_bitsize (p : Pending) (s : State) : (complete p s).bitsize = s.bitsize := by
  unfold complete; split <;> rfl
@[simp] theorem complete_klen (p : Pending) (s : State) : (complete p s).klen = s.klen := by
  unfold complete; split <;> rfl
@[simp] theorem complete_engine (p : Pending) (s : State) : (complete p s).engine = .idle := by
  unfold complete; split <;> rfl
@[simp] theorem complete_base (p : Pending) (s : State) : (complete p s).base = s.base := by
  unfold complete; split <;> rfl
@[simp] theorem complete_width (p : Pending) (s : State) : (complete p s).width = s.width := by
  unfold complete; split <;> rfl
@[simp] theorem complete_inputs (p : Pending) (s : State) : (complete p s).inputs = s.inputs := by
  unfold complete; split <;> rfl
@[simp] theorem complete_rdata (p : Pending) (s : State) : (complete p s).rdata = s.rdata := by
  unfold complete; split <;> rfl
@[simp] theorem complete_draws (p : Pending) (s : State) : (complete p s).draws = s.draws := by
  unfold complete; split <;> rfl

/-- A completion without an error applies every write of the pending outcome. -/
theorem complete_of_ok {p : Pending} (h : p.err = .ok) (s : State) :
    complete p s = { s with
      v := writeRegs s.v p.vWrites, buf := Memory.writeBytes s.buf 0 p.buf, codecLen := p.codecLen.getD s.codecLen,
      status := { s.status with res := p.res, err := .ok, done := true }, engine := .idle } := by
  simp [complete, h]

/-- A completion with an error writes STATUS only. -/
theorem complete_of_err {p : Pending} (h : p.err ≠ .ok) (s : State) :
    complete p s =
      { s with status := { s.status with res := false, err := p.err, done := true }, engine := .idle } := by
  simp [complete, h]

@[simp] theorem complete_done (p : Pending) (s : State) : (complete p s).status.done = true := by
  unfold complete; split <;> rfl

@[simp] theorem complete_busywr (p : Pending) (s : State) : (complete p s).status.busywr = s.status.busywr := by
  unfold complete; split <;> rfl

@[simp] theorem complete_err (p : Pending) (s : State) : (complete p s).status.err = p.err := by
  unfold complete; split <;> simp_all

@[simp] theorem engineStep_accept (c : Word) (p : Pending) (s : State) :
    engineStep (accept c p s) = complete p (accept c p s) := rfl

@[simp] theorem isBusy_accept (c : Word) (p : Pending) (s : State) : isBusy (accept c p s) = true := rfl

end Sys2Proof.Machine
end

