-- ==== Sys2Proof/Laws/Words.lean ====
section
/-! SUPPORT. Words of a big number, bytes of an integer, and writes of V registers. -/
namespace Sys2Proof.Machine

/-- The bits of a big number with one word replaced. -/
theorem getLsbD_setBigWord (x : Big) (j : Nat) (hj : j < 32) (w : Word) (n : Nat) :
    (setBigWord x j w).getLsbD n =
      if 32 * j ≤ n ∧ n < 32 * j + 32 then w.getLsbD (n - 32 * j) else x.getLsbD n := by
  have e : (BitVec.setWidth 1024 (BitVec.allOnes 32) <<< (32 * j)).getLsbD n
      = decide (32 * j ≤ n ∧ n < 32 * j + 32) := by
    simp only [BitVec.getLsbD_shiftLeft, BitVec.getLsbD_setWidth, BitVec.getLsbD_allOnes]
    rw [Bool.eq_iff_iff]; simp; omega
  simp only [setBigWord, BitVec.getLsbD_or, BitVec.getLsbD_and, BitVec.getLsbD_not, e]
  simp only [BitVec.getLsbD_shiftLeft, BitVec.getLsbD_setWidth]
  split
  · rename_i h
    have h1 : n < 1024 := by omega
    have h2 : n - 32 * j < 1024 := by omega
    have h3 : ¬n < 32 * j := by omega
    simp [h, h1, h2, h3]
  · rename_i h
    by_cases h1 : n < 1024
    · by_cases h2 : n < 32 * j
      · simp [h, h1, h2]
      · have : w.getLsbD (n - 32 * j) = false := BitVec.getLsbD_of_ge _ _ (by omega)
        simp [h, h1, this]
    · have : x.getLsbD n = false := BitVec.getLsbD_of_ge _ _ (by omega)
      simp [h1, this]

/-- The bits of a word of a big number. -/
theorem getLsbD_bigWord (x : Big) (j n : Nat) (hn : n < 32) : (bigWord x j).getLsbD n = x.getLsbD (32 * j + n) := by
  simp [bigWord, hn]

/-- A V register after a write of one register. -/
theorem get_setV (v : Vector Big 16) (r q : Reg) (x : Big) : (setV v r x).get q = if q = r then x else v.get q := by
  simp only [setV, Vector.get_eq_getElem, Vector.getElem_set]
  by_cases h : q = r
  · simp [h]
  · rw [if_neg h, if_neg]; intro h'; exact h (Fin.ext h'.symm)

/-- A register that a list of writes does not name keeps its value. -/
theorem get_writeRegs_of_notMem (ws : List (Reg × Big)) (v : Vector Big 16) (q : Reg) (h : q ∉ ws.map Prod.fst) :
    (writeRegs v ws).get q = v.get q := by
  induction ws generalizing v with
  | nil => rfl
  | cons w ws ih =>
    simp only [List.map_cons, List.mem_cons, not_or] at h
    simp only [writeRegs, ih _ h.2, get_setV, if_neg h.1]

/-- An integer below 2^1024 is the register content it makes (10 R33). -/
theorem toNat_toBig {x : Nat} (h : x < 2 ^ 1024) : (toBig x).toNat = x := by
  rw [toBig, BitVec.toNat_ofNat, Nat.mod_eq_of_lt h]

/-- Copying a register through its integer is the identity. -/
@[simp] theorem toBig_toNat (x : Big) : toBig x.toNat = x := by
  rw [toBig, BitVec.ofNat_toNat, BitVec.setWidth_eq]

/-- `BE` of a byte followed by others. -/
theorem natOfBE_append (xs : List Byte) (x : Byte) : natOfBE (xs ++ [x]) = natOfBE xs * 256 + x.toNat := by
  simp [natOfBE]

/-- `BE` of bytesBE is the integer, when it fits (00 R12). -/
theorem natOfBE_bytesBE (n x : Nat) (h : x < 256 ^ n) : natOfBE (bytesBE x n) = x := by
  induction n generalizing x with
  | zero => simp [bytesBE, natOfBE] at *; omega
  | succ n ih =>
    have hs : bytesBE x (n + 1) = bytesBE (x / 256) n ++ [natByte x 0] := by
      simp only [bytesBE, List.range_succ, List.map_append, List.map_cons, List.map_nil]
      congr 1
      · refine List.map_congr_left fun i hi => ?_
        rw [List.mem_range] at hi
        simp only [natByte, Nat.div_div_eq_div_mul]
        congr 2
        rw [show n + 1 - 1 - i = (n - 1 - i) + 1 by omega, pow_succ']
      · simp
    rw [hs, natOfBE_append, ih]
    · simp [natByte]; omega
    · rw [Nat.div_lt_iff_lt_mul (by norm_num)]; rwa [pow_succ] at h

@[simp] theorem length_bytesBE (x n : Nat) : (bytesBE x n).length = n := by simp [bytesBE]

theorem getElem?_bytesBE (x n i : Nat) (h : i < n) : (bytesBE x n)[i]? = some (natByte x (n - 1 - i)) := by
  simp [bytesBE, h]

/-- Every integer of n big-endian bytes is below 256^n. -/
theorem natOfBE_lt (bs : List Byte) : natOfBE bs < 256 ^ bs.length := by
  induction bs using List.reverseRecOn with
  | nil => simp [natOfBE]
  | append_singleton xs x ih =>
    rw [natOfBE_append, List.length_append, List.length_singleton, pow_succ]
    have := x.isLt
    omega

/-- A list of register writes that names no register twice leaves each value it lists. -/
theorem get_writeRegs_of_mem {ws : List (Reg × Big)} (v : Vector Big 16) (h : (ws.map Prod.fst).Nodup) {e : Reg × Big}
    (he : e ∈ ws) : (writeRegs v ws).get e.1 = e.2 := by
  induction ws generalizing v with
  | nil => cases he
  | cons a ws ih =>
    simp only [List.map_cons, List.nodup_cons] at h
    rcases List.mem_cons.1 he with rfl | he
    · rw [writeRegs, get_writeRegs_of_notMem _ _ _ h.1, get_setV, if_pos rfl]
    · exact ih _ h.2 he

/-- A parameter register after a write of one. -/
theorem readPrm_setPrm (ps : Params) (r q : PrmReg) (x : Big) :
    readPrm (setPrm ps r x) q = if q = r then x else readPrm ps q := by
  cases r <;> cases q <;> rfl

/-! ### The parameters of a width -/

/-- NW is at most 32. -/
theorem bigWords_le (w : Width) : Config.bigWords w ≤ 32 := by
  have := w.extra.isLt
  simp only [Config.bigWords]
  omega

/-- W is at most 1024. -/
theorem wBits_le (w : Width) : Config.wBits w ≤ 1024 := by
  have := bigWords_le w
  simp only [Config.wBits]
  omega

/-- The CFG register holds NV = 16 and W (10 R38). -/
theorem toNat_cfgWord (w : Width) : (Config.cfgWord w).toNat = 2 ^ 20 + Config.wBits w := by
  have h : ∀ e : Fin 31, (Config.cfgWord ⟨e⟩).toNat = 2 ^ 20 + Config.wBits ⟨e⟩ := by decide
  exact h w.extra

end Sys2Proof.Machine
end

