-- ==== Sys2Proof/Laws/Engine.lean ====
section
/-! SUPPORT. The life of a command, once: what issuing an instruction can answer, and what its completion leaves. -/
namespace Sys2Proof.Machine

/-- What `issueOrFault` can answer: an acceptance with the rule's outcome, a fault of a well-formed instruction's reads, or the
acceptance of an illegal word. -/
theorem issueOrFault_cases (i : Instr) (r : Except Fault Pending) (s : State) :
    (∃ p, i.wf = true ∧ r = .ok p ∧ issueOrFault i r s = .next (accept (encode i) p s))
    ∨ (∃ f, i.wf = true ∧ r = .error f ∧ issueOrFault i r s = .fault f)
    ∨ (i.wf = false ∧ issueOrFault i r s = .next (accept (encode i) (raiseError .illegal) s)) := by
  unfold issueOrFault
  by_cases h : i.wf = true
  · cases r with
    | ok p => exact .inl ⟨p, h, rfl, by simp [h]⟩
    | error f => exact .inr (.inl ⟨f, h, rfl, by simp [h]⟩)
  · simp only [Bool.not_eq_true] at h
    exact .inr (.inr ⟨h, by simp [h]⟩)

/-- `issue` always answers a next state: the acceptance of the outcome, or of ILLEGAL. -/
theorem issue_eq (i : Instr) (p : Pending) (s : State) :
    issue i p s = .next (accept (encode i) (if i.wf then p else raiseError .illegal) s) := by
  unfold issue issueOrFault; split <;> rfl

/-- The completion of an error leaves the state as it was but for CMD and STATUS (60 R328). -/
theorem finishes_raiseError (c : Word) (e : Err) (he : e ≠ .ok) (s : State) :
    Finishes (accept c (raiseError e) s) (afterCommand s c e false) :=
  ⟨rfl, by rw [engineStep_accept, complete_of_err (show (raiseError e).err ≠ .ok from he)]; rfl⟩

/-- The completion of register writes. -/
theorem finishes_writesV (c : Word) (ws : List (Reg × Big)) (s : State) :
    Finishes (accept c (writesV ws) s) { afterCommand s c .ok false with v := writeRegs s.v ws } :=
  ⟨rfl, rfl⟩

/-- The completion of a boolean result. -/
theorem finishes_writesRes (c : Word) (b : Bool) (s : State) :
    Finishes (accept c (writesRes b) s) (afterCommand s c .ok b) := ⟨rfl, rfl⟩

/-- The parameter check in the spec's words (60 R323). -/
theorem paramsOk_iff (s : State) :
    paramsOk s = true ↔ s.prm.p.toNat % 2 = 1 ∧ 3 ≤ s.prm.p.toNat ∧ 1 ≤ s.bitsize.toNat ∧ s.bitsize.toNat ≤ Config.wBits s.width
      ∧ s.prm.p.toNat < 2 ^ s.bitsize.toNat := by
  simp only [paramsOk, Bool.and_eq_true, decide_eq_true_eq]
  simp only [modulus]; tauto

/-- A command that checks parameters, when they pass and when they fail. -/
theorem withParams_of_ok {s : State} (h : paramsOk s = true) (k : Nat → Pending) : withParams s k = k s.prm.p.toNat := by
  simp [withParams, h, modulus]

theorem withParams_of_not {s : State} (h : paramsOk s = false) (k : Nat → Pending) :
    withParams s k = raiseError .badParam := by
  simp [withParams, h]

/-- The modulus fits in a register. -/
theorem modulus_lt (s : State) : s.prm.p.toNat < 2 ^ 1024 := s.prm.p.isLt

end Sys2Proof.Machine
end

