-- ==== Sys2Proof/Laws/Memory.lean ====
section
/-! SUPPORT. BUF as memory: a read after a write, and the canonical form every operation keeps. -/
namespace Sys2Proof.Machine

@[simp] theorem Memory.read_nil (a : Nat) : Memory.read [] a = none := rfl

/-- A read after a write: the byte written at its address, the old byte elsewhere. -/
theorem Memory.read_write (m : Memory) (a b : Nat) (x : Byte) :
    Memory.read (Memory.write m a x) b = if b = a then some x else Memory.read m b := by
  induction m with
  | nil => simp only [Memory.write, Memory.read, Memory.unlisted]; split <;> split <;> simp_all
  | cons c m ih =>
    obtain ⟨k, y⟩ := c
    simp only [Memory.write]
    split
    · simp only [Memory.read]; grind
    · split
      · simp only [Memory.read]; grind
      · simp only [Memory.read, ih]; grind

/-- A read after writing a run of bytes. -/
theorem Memory.read_writeBytes (m : Memory) (a b : Nat) (xs : List Byte) :
    Memory.read (Memory.writeBytes m a xs) b =
      if a ≤ b ∧ b < a + xs.length then xs[b - a]? else Memory.read m b := by
  induction xs generalizing m a with
  | nil => simp only [Memory.writeBytes, List.length_nil]; rw [if_neg (by omega)]
  | cons x xs ih =>
    simp only [Memory.writeBytes, ih, Memory.read_write, List.length_cons]
    by_cases h : b = a
    · subst h; simp
    · by_cases h2 : a + 1 ≤ b ∧ b < a + 1 + xs.length
      · obtain ⟨n, hn⟩ : ∃ n, b - a = n + 1 := ⟨b - a - 1, by omega⟩
        rw [if_pos h2, if_pos (by omega), hn, List.getElem?_cons_succ]
        congr 1; omega
      · rw [if_neg h2, if_neg h, if_neg (by omega)]

/-- The addresses a write leaves are those that were there and the one written. -/
theorem Memory.mem_write {m : Memory} {a : Nat} {x : Byte} {c : Host.Cell} (h : c ∈ Memory.write m a x) :
    c.1 = a ∨ c ∈ m := by
  induction m with
  | nil => simp_all [Memory.write]
  | cons d m ih =>
    obtain ⟨k, y⟩ := d
    simp only [Memory.write] at h
    split at h
    · simp_all only [List.mem_cons]; rcases h with rfl | h <;> simp_all
    · split at h
      · simp_all only [List.mem_cons]; rcases h with rfl | h <;> simp_all
      · rcases List.mem_cons.1 h with rfl | h
        · simp
        · rcases ih h with h | h <;> simp [h]

/-- A write keeps the canonical form. -/
theorem Memory.wf_write {m : Memory} {size : Nat} (hm : Memory.wf size m) {a : Nat} (ha : a < size) (x : Byte) :
    Memory.wf size (Memory.write m a x) := by
  refine ⟨?_, fun c hc => ?_⟩
  · obtain ⟨hp, -⟩ := hm
    induction m with
    | nil => simp [Memory.write]
    | cons d m ih =>
      obtain ⟨k, y⟩ := d
      rw [List.pairwise_cons] at hp
      simp only [Memory.write]
      split
      · rename_i h
        refine List.pairwise_cons.2 ⟨fun c hc => ?_, List.pairwise_cons.2 hp⟩
        rcases List.mem_cons.1 hc with rfl | hc
        · exact h
        · exact lt_trans h (hp.1 c hc)
      · split
        · rename_i h; exact List.pairwise_cons.2 ⟨fun c hc => by simpa [h] using hp.1 c hc, hp.2⟩
        · refine List.pairwise_cons.2 ⟨fun c hc => ?_, ih hp.2⟩
          rcases Memory.mem_write hc with h | h
          · simp only [h]; omega
          · exact hp.1 c h
  · rcases Memory.mem_write hc with h | h
    · rw [h]; exact ha
    · exact hm.2 c h

/-- Writing a run of bytes inside the buffer keeps the canonical form. -/
theorem Memory.wf_writeBytes {m : Memory} {size : Nat} (hm : Memory.wf size m) (a : Nat) (xs : List Byte)
    (h : a + xs.length ≤ size) : Memory.wf size (Memory.writeBytes m a xs) := by
  induction xs generalizing m a with
  | nil => exact hm
  | cons x xs ih =>
    simp only [List.length_cons] at h
    exact ih (Memory.wf_write hm (by omega) x) (a + 1) (by omega)

/-- What a run of reads answers: n bytes, each the one its address holds. -/
theorem Memory.readBytes_ok {m : Memory} {a n : Nat} {bs : List Byte} (h : Memory.readBytes m a n = .ok bs) :
    bs.length = n ∧ ∀ i < n, Memory.read m (a + i) = bs[i]? := by
  induction n generalizing a bs with
  | zero => simp_all [Memory.readBytes]
  | succ n ih =>
    simp only [Memory.readBytes] at h
    split at h
    · cases h
    · split at h
      · cases h
      · rename_i b hb _ bs' hbs
        cases h
        obtain ⟨hl, hr⟩ := ih hbs
        refine ⟨by simp [hl], fun i hi => ?_⟩
        cases i with
        | zero => simpa using hb
        | succ i => rw [List.getElem?_cons_succ, ← hr i (by omega)]; congr 1; omega

/-- A run of reads stops at an address of the run that holds no value. -/
theorem Memory.readBytes_error {m : Memory} {a n e : Nat} (h : Memory.readBytes m a n = .error e) :
    a ≤ e ∧ e < a + n ∧ Memory.read m e = none := by
  induction n generalizing a with
  | zero => simp [Memory.readBytes] at h
  | succ n ih =>
    simp only [Memory.readBytes] at h
    split at h
    · rename_i hr; cases h; exact ⟨le_refl _, by omega, hr⟩
    · split at h
      · rename_i he; cases h; obtain ⟨h1, h2, h3⟩ := ih he; exact ⟨by omega, by omega, h3⟩
      · cases h

/-- A run of reads answers exactly the bytes the run holds. -/
theorem Memory.readBytes_of_read {m : Memory} {a : Nat} {bs : List Byte}
    (h : ∀ i < bs.length, Memory.read m (a + i) = bs[i]?) : Memory.readBytes m a bs.length = .ok bs := by
  induction bs generalizing a with
  | nil => rfl
  | cons b bs ih =>
    have h0 := h 0 (by simp)
    have ht := ih (a := a + 1) fun i hi => by
      have := h (i + 1) (by simpa using hi)
      rw [List.getElem?_cons_succ] at this
      rw [← this]; congr 1; omega
    simp only [Nat.add_zero, List.getElem?_cons_zero] at h0
    simp [Memory.readBytes, h0, ht]

end Sys2Proof.Machine
end

