-- ==== Sys2Proof/Laws/Outcome.lean ====
section
/-! SUPPORT. What the meanings have in common, once: the outcome of each instruction, what holds of every outcome, and everything
that exec can answer. -/
namespace Sys2Proof.Machine

/-- The outcome an instruction's rule gives of a state, or the fault its reads meet (10 R52): what `exec` hands to
`issueOrFault`. -/
def outcome (i : Instr) (s : State) : Except Fault Pending :=
  match i with
  | .nop => .ok (writesV [])
  | .mov d a => .ok (writesV [(d, readV s a)])
  | .mred d a => .ok (withParams s fun P => writesV (toSingle d (modP P (single s a))))
  | .madd d a b => .ok (withParams s fun P => writesV (toSingle d (modP P ((single s a : Int) + single s b))))
  | .msub d a b => .ok (withParams s fun P => writesV (toSingle d (modP P ((single s a : Int) - single s b))))
  | .mmul d a b => .ok (withParams s fun P => writesV (toSingle d (modP P ((single s a : Int) * single s b))))
  | .minv d a =>
    .ok (withParams s fun P => orNotInvertible (inverse P (single s a)) fun y => writesV (toSingle d y))
  | .pchk a => .ok (withParams s fun P => writesRes (isOnCurve P s.prm.b.toNat (affineAt s a)))
  | .pjac d a => .ok (withParams s fun _ => writesV (toTriple d (jacOfAffine (affineAt s a))))
  | .paff d a =>
    .ok (withParams s fun P => orNotInvertible (affineFromJacobian P (jacAt s a)) fun q => writesV (toPair d q))
  | .paddj d a b => .ok (withParams s fun P => writesV (toTriple d (addJacobian P (jacAt s a) (jacAt s b))))
  | .pdblj d a => .ok (withParams s fun P => writesV (toTriple d (doubleJacobian P (jacAt s a))))
  | .padd d a b =>
    .ok (withParams s fun P =>
      orNotInvertible (addAffine P (affineAt s a) (affineAt s b)) fun q => writesV (toPair d q))
  | .pdbl d a =>
    .ok (withParams s fun P => orNotInvertible (doubleAffine P (affineAt s a)) fun q => writesV (toPair d q))
  | .smul d a b =>
    .ok (withParams s fun P => withScalarLen s fun n =>
      orNotInvertible (scalarMult P (affineAt s a) (single s b) n) fun q => writesV (toPair d q))
  | .sbmul d a =>
    .ok (withParams s fun P => withScalarLen s fun n =>
      orNotInvertible (scalarMult P (basePoint s) (single s a) n) fun q => writesV (toPair d q))
  | .penc a => .ok (withParams s fun _ => pencOutcome s (affineAt s a))
  | .pdec d => if paramsOk s then pdecOutcome d s else .ok (raiseError .badParam)

/-- Every meaning is `issueOrFault` of the outcome. -/
theorem exec_eq_issueOrFault (i : Instr) (s : State) : exec i s = issueOrFault i (outcome i s) s := by cases i <;> rfl

/-- The encoding fits in BUF when the parameter check passes (43 R290). -/
theorem byteLen_bounds {s : State} (h : paramsOk s = true) :
    1 ≤ byteLen s ∧ byteLen s ≤ Config.wBits s.width / 8 ∧ 1 + 2 * byteLen s ≤ Config.bufBytes s.width := by
  have h := (paramsOk_iff s).1 h
  simp only [byteLen, Config.bufBytes, Config.wBits] at *
  omega

/-- What is so of the outcome of every instruction: an error holds nothing else, the registers it writes are destinations, only
PENC writes BUF and CODEC_LEN, and only PCHK and PDEC give a result. -/
structure OutcomeOf (i : Instr) (s : State) (p : Pending) : Prop where
  err : p.err ≠ .ok → p = raiseError p.err
  regs : ∀ r ∈ p.vWrites.map Prod.fst, r ∈ destRegs i
  buf : writesBuf i = false → p.buf = [] ∧ p.codecLen = none
  encoding : p.buf.length ≤ 1 + 2 * byteLen s
  inBuf : p.buf.length ≤ Config.bufBytes s.width
  res : setsRes i = false → p.res = false

theorem outcomeOf_raiseError (i : Instr) (s : State) (e : Err) : OutcomeOf i s (raiseError e) := by
  constructor <;> simp [raiseError]

theorem outcomeOf_withParams {i : Instr} {s : State} {k : Nat → Pending}
    (h : paramsOk s = true → OutcomeOf i s (k (modulus s))) : OutcomeOf i s (withParams s k) := by
  unfold withParams; split
  · exact h ‹_›
  · exact outcomeOf_raiseError _ _ _

theorem outcomeOf_withScalarLen {i : Instr} {s : State} {k : Nat → Pending} (h : ∀ n, OutcomeOf i s (k n)) :
    OutcomeOf i s (withScalarLen s k) := by
  unfold withScalarLen; split
  · exact h _
  · exact outcomeOf_raiseError _ _ _

theorem outcomeOf_orNotInvertible {α : Type} {i : Instr} {s : State} {r : Option α} {k : α → Pending}
    (h : ∀ x, OutcomeOf i s (k x)) : OutcomeOf i s (orNotInvertible r k) := by
  unfold orNotInvertible; split
  · exact outcomeOf_raiseError _ _ _
  · exact h _

theorem outcomeOf_writesV {i : Instr} {s : State} {ws : List (Reg × Big)}
    (h : ∀ r ∈ ws.map Prod.fst, r ∈ destRegs i) : OutcomeOf i s (writesV ws) := by
  constructor <;> simp [writesV]
  simpa using h

theorem outcomeOf_writesRes {i : Instr} {s : State} {b : Bool} (h : setsRes i = true) : OutcomeOf i s (writesRes b) := by
  constructor <;> simp [writesRes, h]

@[simp] theorem length_encodePoint (n : Nat) (q : Affine) : (encodePoint n q).length = 1 + 2 * n := by
  simp [encodePoint]; omega

/-- What PDEC's outcome can be. -/
theorem pdecOutcome_cases {d : Reg} {s : State} {p : Pending} (h : pdecOutcome d s = .ok p) :
    p = writesRes false
    ∨ ∃ bs : List Byte, s.codecLen.toNat = 1 + 2 * byteLen s ∧ Memory.read s.buf 0 = some 4#8
      ∧ Memory.readBytes s.buf 1 (2 * byteLen s) = .ok bs
      ∧ p = { writesRes true with
          vWrites := toPair d ⟨natOfBE (bs.take (byteLen s)), natOfBE (bs.drop (byteLen s))⟩ } := by
  unfold pdecOutcome at h
  simp only at h
  split at h
  · cases h; exact .inl rfl
  rename_i hl
  split at h
  · cases h
  rename_i tag htag
  split at h
  · cases h; exact .inl rfl
  rename_i h4
  split at h
  · cases h
  · rename_i bs hbs
    cases h
    simp only [ne_eq, not_not] at hl h4
    exact .inr ⟨bs, hl, by rw [htag, h4], hbs, rfl⟩

/-- The outcome of every instruction has these properties. -/
theorem outcomeOf_outcome {i : Instr} {s : State} {p : Pending} (h : outcome i s = .ok p) : OutcomeOf i s p := by
  cases i with
  | pdec d =>
    simp only [outcome] at h
    split at h
    · rcases pdecOutcome_cases h with rfl | ⟨bs, -, -, -, rfl⟩
      · exact outcomeOf_writesRes rfl
      · constructor <;> simp [writesRes, setsRes, toPair, destRegs]
    · cases h; exact outcomeOf_raiseError _ _ _
  | penc a =>
    cases h
    refine outcomeOf_withParams fun hp => ?_
    have hb := byteLen_bounds hp
    unfold pencOutcome; split
    · exact outcomeOf_raiseError _ _ _
    · constructor <;> simp [writesBuf, hb.2.2]
  | pchk a => cases h; exact outcomeOf_withParams fun _ => outcomeOf_writesRes rfl
  | smul d a b =>
    cases h
    exact outcomeOf_withParams fun _ => outcomeOf_withScalarLen fun _ => outcomeOf_orNotInvertible fun _ =>
      outcomeOf_writesV (by simp [toPair, destRegs])
  | sbmul d a =>
    cases h
    exact outcomeOf_withParams fun _ => outcomeOf_withScalarLen fun _ => outcomeOf_orNotInvertible fun _ =>
      outcomeOf_writesV (by simp [toPair, destRegs])
  | nop => cases h; exact outcomeOf_writesV (by simp)
  | mov d a => cases h; exact outcomeOf_writesV (by simp [destRegs])
  | minv d a =>
    cases h
    exact outcomeOf_withParams fun _ => outcomeOf_orNotInvertible fun _ => outcomeOf_writesV (by simp [toSingle, destRegs])
  | paff d a =>
    cases h
    exact outcomeOf_withParams fun _ => outcomeOf_orNotInvertible fun _ => outcomeOf_writesV (by simp [toPair, destRegs])
  | padd d a b =>
    cases h
    exact outcomeOf_withParams fun _ => outcomeOf_orNotInvertible fun _ => outcomeOf_writesV (by simp [toPair, destRegs])
  | pdbl d a =>
    cases h
    exact outcomeOf_withParams fun _ => outcomeOf_orNotInvertible fun _ => outcomeOf_writesV (by simp [toPair, destRegs])
  | mred d a => cases h; exact outcomeOf_withParams fun _ => outcomeOf_writesV (by simp [toSingle, destRegs])
  | madd d a b => cases h; exact outcomeOf_withParams fun _ => outcomeOf_writesV (by simp [toSingle, destRegs])
  | msub d a b => cases h; exact outcomeOf_withParams fun _ => outcomeOf_writesV (by simp [toSingle, destRegs])
  | mmul d a b => cases h; exact outcomeOf_withParams fun _ => outcomeOf_writesV (by simp [toSingle, destRegs])
  | pjac d a => cases h; exact outcomeOf_withParams fun _ => outcomeOf_writesV (by simp [toTriple, destRegs])
  | paddj d a b => cases h; exact outcomeOf_withParams fun _ => outcomeOf_writesV (by simp [toTriple, destRegs])
  | pdblj d a => cases h; exact outcomeOf_withParams fun _ => outcomeOf_writesV (by simp [toTriple, destRegs])

/-- Everything `exec` can answer: a fault of PDEC's reads, or the acceptance of an outcome with the properties above, which is
the instruction's own, or ILLEGAL of a term that is not well formed. -/
theorem exec_cases (i : Instr) (s : State) :
    (∃ p, OutcomeOf i s p ∧ exec i s = .next (accept (encode i) p s)
      ∧ (i.wf = true ∧ outcome i s = .ok p ∨ i.wf = false ∧ p = raiseError .illegal))
    ∨ ∃ f, i.wf = true ∧ outcome i s = .error f ∧ exec i s = .fault f := by
  rw [exec_eq_issueOrFault]
  rcases issueOrFault_cases i (outcome i s) s with ⟨p, hw, hp, he⟩ | ⟨f, hw, hf, he⟩ | ⟨hw, he⟩
  · exact .inl ⟨p, outcomeOf_outcome hp, he, .inl ⟨hw, hp⟩⟩
  · exact .inr ⟨f, hw, hf, he⟩
  · exact .inl ⟨_, outcomeOf_raiseError _ _ _, he, .inr ⟨hw, rfl⟩⟩

/-- The one instruction whose outcome can be a fault is PDEC, at a byte of its encoding that holds no value (10 R48). -/
theorem outcome_error {i : Instr} {s : State} {f : Fault} (h : outcome i s = .error f) :
    ∃ d n, i = .pdec d ∧ f = .bufByteUnwritten n ∧ paramsOk s = true ∧ s.codecLen.toNat = 1 + 2 * byteLen s
      ∧ n < s.codecLen.toNat ∧ Memory.read s.buf n = none := by
  cases i <;> simp only [outcome] at h <;> try cases h
  rename_i d
  split at h
  · rename_i hp
    unfold pdecOutcome at h
    simp only at h
    split at h
    · cases h
    rename_i hl
    simp only [ne_eq, not_not] at hl
    split at h
    · rename_i hr; cases h; exact ⟨d, 0, rfl, rfl, hp, hl, by omega, hr⟩
    split at h
    · cases h
    split at h
    · rename_i e hr; cases h
      obtain ⟨h1, h2, h3⟩ := Memory.readBytes_error hr
      exact ⟨d, e, rfl, rfl, hp, hl, by omega, h3⟩
    · cases h
  · cases h

end Sys2Proof.Machine
end

