-- ==== Sys2Proof/Laws/PerInstr.lean ====
section
/-! SUPPORT. Statements made per instruction: the encoded word has the instruction's opcode in [5:0] and 0 in [31:18]. -/
namespace Sys2Proof.Laws

/-- The OPC field of the word is the instruction's opcode, and the reserved bits are 0 (30 R121, R126). -/
def EncodedFields.Statement (i : Instr) : Prop :=
  (encode i).extractLsb' 0 6 = i.opcode ∧ (encode i).extractLsb' 18 14 = 0#14

theorem EncodedFields.nop : EncodedFields.Statement .nop :=
  ⟨assemble_opcode _ _ _ _, assemble_reserved _ _ _ _⟩

theorem EncodedFields.mov (d a : Reg) : EncodedFields.Statement (.mov d a) :=
  ⟨assemble_opcode _ _ _ _, assemble_reserved _ _ _ _⟩

theorem EncodedFields.mred (d a : Reg) : EncodedFields.Statement (.mred d a) :=
  ⟨assemble_opcode _ _ _ _, assemble_reserved _ _ _ _⟩

theorem EncodedFields.madd (d a b : Reg) : EncodedFields.Statement (.madd d a b) :=
  ⟨assemble_opcode _ _ _ _, assemble_reserved _ _ _ _⟩

theorem EncodedFields.msub (d a b : Reg) : EncodedFields.Statement (.msub d a b) :=
  ⟨assemble_opcode _ _ _ _, assemble_reserved _ _ _ _⟩

theorem EncodedFields.mmul (d a b : Reg) : EncodedFields.Statement (.mmul d a b) :=
  ⟨assemble_opcode _ _ _ _, assemble_reserved _ _ _ _⟩

theorem EncodedFields.minv (d a : Reg) : EncodedFields.Statement (.minv d a) :=
  ⟨assemble_opcode _ _ _ _, assemble_reserved _ _ _ _⟩

theorem EncodedFields.pchk (a : Reg) : EncodedFields.Statement (.pchk a) :=
  ⟨assemble_opcode _ _ _ _, assemble_reserved _ _ _ _⟩

theorem EncodedFields.pjac (d a : Reg) : EncodedFields.Statement (.pjac d a) :=
  ⟨assemble_opcode _ _ _ _, assemble_reserved _ _ _ _⟩

theorem EncodedFields.paff (d a : Reg) : EncodedFields.Statement (.paff d a) :=
  ⟨assemble_opcode _ _ _ _, assemble_reserved _ _ _ _⟩

theorem EncodedFields.paddj (d a b : Reg) : EncodedFields.Statement (.paddj d a b) :=
  ⟨assemble_opcode _ _ _ _, assemble_reserved _ _ _ _⟩

theorem EncodedFields.pdblj (d a : Reg) : EncodedFields.Statement (.pdblj d a) :=
  ⟨assemble_opcode _ _ _ _, assemble_reserved _ _ _ _⟩

theorem EncodedFields.padd (d a b : Reg) : EncodedFields.Statement (.padd d a b) :=
  ⟨assemble_opcode _ _ _ _, assemble_reserved _ _ _ _⟩

theorem EncodedFields.pdbl (d a : Reg) : EncodedFields.Statement (.pdbl d a) :=
  ⟨assemble_opcode _ _ _ _, assemble_reserved _ _ _ _⟩

theorem EncodedFields.smul (d a b : Reg) : EncodedFields.Statement (.smul d a b) :=
  ⟨assemble_opcode _ _ _ _, assemble_reserved _ _ _ _⟩

theorem EncodedFields.sbmul (d a : Reg) : EncodedFields.Statement (.sbmul d a) :=
  ⟨assemble_opcode _ _ _ _, assemble_reserved _ _ _ _⟩

theorem EncodedFields.penc (a : Reg) : EncodedFields.Statement (.penc a) :=
  ⟨assemble_opcode _ _ _ _, assemble_reserved _ _ _ _⟩

theorem EncodedFields.pdec (d : Reg) : EncodedFields.Statement (.pdec d) :=
  ⟨assemble_opcode _ _ _ _, assemble_reserved _ _ _ _⟩

end Sys2Proof.Laws
end

