-- ==== Sys2Proof/Laws/Step.lean ====
section
/-! SUPPORT. What a step takes, what the window does with it, and what a turn of the engine leaves. -/
namespace Sys2Proof.Machine

/-- A step takes the oldest event. -/
theorem step_cons {s : State} {e : BusEvent} {rest : List BusEvent} (h : s.inputs = e :: rest) :
    step s = busEvent e { s with inputs := rest } := by
  simp [step, nextEvent, h]

/-- With nothing left a step is the engine's turn. -/
theorem step_nil {s : State} (h : s.inputs = []) : step s = .next (engineStep s) := by
  simp [step, nextEvent, h]

@[simp] theorem inWindow_add (base off : Nat) : inWindow base (base + off) = decide (off < 0x4000) := by
  simp [inWindow, Config.windowBytes]

/-- What an event inside or outside the window answers, by its address (20 R81, R92). -/
theorem busEvent_write_of_in {s : State} {off : Nat} (h : off < 0x4000) (x : Word) :
    busEvent (.write (s.base + off) 4 x) s = writeEffect (target s.width off) x s := by
  simp [busEvent, h]

theorem busEvent_read_of_in {s : State} {off : Nat} (h : off < 0x4000) :
    busEvent (.read (s.base + off) 4) s = .next (readEffect (target s.width off) s) := by
  simp [busEvent, h]

/-- The bits [1:0] of an offset do not matter (20 R91). -/
theorem target_add (w : Width) (n k : Nat) (hk : k < 4) : target w (4 * n + k) = target w (4 * n) := by
  have h : (4 * n + k) % 0x4000 / 4 = 4 * n % 0x4000 / 4 := by omega
  simp only [target, h]

@[simp] theorem engineStep_inputs (s : State) : (engineStep s).inputs = s.inputs := by
  unfold engineStep; split <;> simp

@[simp] theorem engineStep_width (s : State) : (engineStep s).width = s.width := by
  unfold engineStep; split <;> simp

@[simp] theorem engineStep_base (s : State) : (engineStep s).base = s.base := by
  unfold engineStep; split <;> simp

/-- A turn leaves the engine IDLE. -/
@[simp] theorem isBusy_engineStep (s : State) : isBusy (engineStep s) = false := by
  unfold engineStep; split
  · rename_i h; simp [isBusy, h]
  · simp [isBusy]

/-- A turn of an IDLE engine does nothing. -/
theorem engineStep_of_idle {s : State} (h : isBusy s = false) : engineStep s = s := by
  unfold isBusy at h; unfold engineStep
  split <;> simp_all

/-- What a word written to CMD while IDLE can answer: the acceptance of a well-formed outcome, or a fault. -/
theorem acceptWord_cases (w : Word) (s : State) :
    (∃ c p, PendingWf s.width p ∧ acceptWord w s = .next (accept c p s)) ∨ ∃ f, acceptWord w s = .fault f := by
  unfold acceptWord
  split
  · rename_i i h
    rcases exec_cases i s with ⟨p, hp, he, -⟩ | ⟨f, -, -, he⟩
    · exact .inl ⟨_, p, ⟨hp.err, hp.inBuf⟩, he⟩
    · exact .inr ⟨f, he⟩
  · exact .inl ⟨_, _, ⟨by simp [raiseError], by simp [raiseError]⟩, rfl⟩

/-- An address is in the window when it is one of the 16 KiB from BASE on (20 R81). -/
theorem inWindow_iff (base address : Nat) :
    inWindow base address = true ↔ base ≤ address ∧ address < base + 0x4000 := by
  simp only [inWindow, Bool.and_eq_true, decide_eq_true_eq]
  rfl

/-- Only the word at 0x00C is CMD (20 R82). -/
theorem target_eq_cmd {w : Width} {off : Nat} (hlt : off < 0x4000) (h : target w off = .cmd) : 0x00C ≤ off ∧ off < 0x010 := by
  unfold target at h
  rw [Nat.mod_eq_of_lt hlt] at h
  simp only at h
  by_cases h1 : off / 4 < 0x100 / 4
  · rw [if_pos h1] at h
    have : off / 4 = 3 := by
      revert h
      generalize off / 4 = x
      unfold csrTarget
      split <;> simp
    omega
  · rw [if_neg h1] at h
    repeat' split at h
    all_goals simp at h

/-- A word of a big register that an address reaches is one of its NW words, and a word of BUF one of its BUFWORDS. -/
theorem target_bounds (w : Width) (off : Nat) :
    (∀ r j, target w off = .v r j → j < Config.bigWords w) ∧ (∀ r j, target w off = .prm r j → j < Config.bigWords w)
    ∧ ∀ j, target w off = .buf j → j < Config.bufWords w := by
  unfold target
  generalize off % 0x4000 / 4 = x
  have hc : csrTarget x ∈ [.id, .cfg, .ctrl, .cmd, .status, .irqen, .bitsize, .klen, .codecLen, Target.reserved] := by
    unfold csrTarget
    split <;> simp
  simp only
  refine ⟨fun r j h => ?_, fun r j h => ?_, fun j h => ?_⟩ <;> (repeat' split at h) <;> simp_all

/-- A host write leaves the schedule as it is. -/
theorem writeEffect_inputs {tg : Target} {x : Word} {s t : State} (h : writeEffect tg x s = .next t) :
    t.inputs = s.inputs := by
  cases tg <;> simp only [writeEffect, whenIdle] at h
  case cmd =>
    split at h
    · cases h; rfl
    · rcases acceptWord_cases x s with ⟨c, p, -, he⟩ | ⟨f, he⟩
      · rw [he] at h; cases h; rfl
      · rw [he] at h; cases h
  all_goals cases h; (try split) <;> rfl

/-- Each step takes one event off the schedule. -/
theorem step_inputs {s t : State} (h : step s = .next t) : t.inputs = s.inputs.tail := by
  cases hin : s.inputs with
  | nil => rw [step_nil hin] at h; cases h; simp [hin]
  | cons e rest =>
    rw [step_cons hin] at h
    cases e with
    | engineTurn => cases h; simp
    | powerOn => cases h; rfl
    | read a n => simp only [busEvent] at h; split at h <;> [skip; split at h] <;> cases h <;> rfl
    | write a n x =>
      simp only [busEvent] at h
      split at h
      · cases h; rfl
      split at h
      · cases h
      · exact writeEffect_inputs h

end Sys2Proof.Machine
end

