-- ==== Sys2Proof/Tests/Slice0.lean ====
section
/-! SUPPORT. The model's own tests: well-formedness, decoding of words written out in the spec, one command on a small state
against the spec's vectors, single bus events, and for every obligation with hypotheses a witness that meets them. Every
expected value comes from spec/95 (the section is named) or from the rule named, never from the model. -/
namespace Sys2Proof.Tests
open Sys2Proof.Machine

-- The tests one after the other: elaborated at once they take more memory than the check allows.
set_option Elab.async false

/-! ### Small states -/

/-- Curve T23 of spec/95 section 0, engine IDLE, STATUS 0. -/
def t23 : State := { State.reset with prm := ⟨23, 23, 1, 2, 7⟩, bitsize := 5, klen := 1 }

/-- Curve T11 of spec/95 section 0. -/
def t11 : State := { State.reset with prm := ⟨11, 16, 3, 0, 5⟩, bitsize := 4, klen := 1 }

/-- Curve P-256 of spec/95 section 2.5. -/
def p256 : State :=
  { State.reset with
    prm := ⟨0xFFFFFFFF00000001000000000000000000000000FFFFFFFFFFFFFFFFFFFFFFFF,
      0xFFFFFFFF00000000FFFFFFFFFFFFFFFFBCE6FAADA7179E84F3B9CAC2FC632551,
      0x5AC635D8AA3A93E7B3EBBD55769886BC651D06B0CC53B0F63BCE3C3E27D2604B,
      0x6B17D1F2E12C4247F8BCE6E563A440F277037D812DEB33A0F4A13945D898C296,
      0x4FE342E2FE1A7F9B8EE7EB4A7C0F9E162BCE33576B315ECECBB6406837BF51F5⟩
    bitsize := 256
    klen := 32 }

/-- A state with V registers loaded. -/
def withV (ws : List (Reg × Big)) (s : State) : State := { s with v := writeRegs s.v ws }

/-- A state with another modulus. -/
def withP (p : Big) (s : State) : State := { s with prm := { s.prm with p := p } }

/-- A state with bytes in BUF from byte 0 on, and CODEC_LEN. -/
def withBuf (bs : List Byte) (n : BitVec 16) (s : State) : State :=
  { s with buf := Memory.writeBytes s.buf 0 bs, codecLen := n }

/-- T23 while a MADD v0 is pending (spec/95 B7). -/
def busy : State := { t23 with engine := .busy (writesV (toSingle 0 8)), cmd := 0x00000402 }

/-- The window somewhere else, one event to come. -/
def at4000 (e : BusEvent) : State := { t23 with base := 0x4000, inputs := [e] }

/-- The state a command word leaves: one step that fetches it, then the engine's completion. -/
def runWord (w : Nat) (s : State) : Option State :=
  match step (s.withFetchWord 32 w) with
  | .next t => some (engineStep t)
  | .fault _ => none
  | .refused _ => none

/-- What a vector of spec/95 lists: some V registers and STATUS. -/
def vector (w : Nat) (s : State) (rs : List Reg) : Option (List Nat × Nat) :=
  (runWord w s).map fun t => (rs.map (single t), (statusWord t).toNat)

/-- What a codec vector lists: the first bytes of BUF, CODEC_LEN and STATUS. -/
def codecVector (w : Nat) (s : State) (n : Nat) : Option (List (Option Byte) × Nat × Nat) :=
  (runWord w s).map fun t => ((List.range n).map (Memory.read t.buf), t.codecLen.toNat, (statusWord t).toNat)

/-- The next state of an outcome. -/
def nextOf (o : Host.Outcome State Fault Refusal) : Option State :=
  match o with
  | .next t => some t
  | .fault _ => none
  | .refused _ => none

/-- An outcome that is a next state. -/
theorem next_of {o : Host.Outcome State Fault Refusal} (h : (nextOf o).isSome = true) : ∃ t, o = .next t := by
  cases o with
  | next t => exact ⟨t, rfl⟩
  | fault f => cases h
  | refused r => cases h

/-- An outcome that is a next state with a property. -/
theorem next_with {o : Host.Outcome State Fault Refusal} (P : State → Prop) [DecidablePred P]
    (h : (nextOf o).any (fun t => decide (P t)) = true) : ∃ t, o = .next t ∧ P t := by
  cases o with
  | next t => exact ⟨t, rfl, of_decide_eq_true h⟩
  | fault f => cases h
  | refused r => cases h

/-- The fault of an outcome. -/
def faultOf (o : Host.Outcome State Fault Refusal) : Option Fault :=
  match o with
  | .next _ => none
  | .fault f => some f
  | .refused _ => none

/-- An outcome that is this fault. -/
theorem fault_of {o : Host.Outcome State Fault Refusal} {f : Fault} (h : faultOf o = some f) : o = .fault f := by
  cases o with
  | next t => cases h
  | fault g => cases h; rfl
  | refused r => cases h

/-! ### Well-formedness: an ill-formed term for each check -/

theorem test_illformed_pairs :
    (Instr.pchk 15).wf = false ∧ (Instr.pjac 0 15).wf = false ∧ (Instr.paff 15 0).wf = false
    ∧ (Instr.padd 15 0 0).wf = false ∧ (Instr.padd 0 15 0).wf = false ∧ (Instr.padd 0 0 15).wf = false
    ∧ (Instr.pdbl 15 0).wf = false ∧ (Instr.pdbl 0 15).wf = false ∧ (Instr.smul 15 0 0).wf = false
    ∧ (Instr.smul 0 15 0).wf = false ∧ (Instr.sbmul 15 0).wf = false ∧ (Instr.penc 15).wf = false
    ∧ (Instr.pdec 15).wf = false := by decide

theorem test_illformed_triples :
    (Instr.pjac 14 0).wf = false ∧ (Instr.paff 0 14).wf = false ∧ (Instr.paddj 14 0 0).wf = false
    ∧ (Instr.paddj 0 14 0).wf = false ∧ (Instr.paddj 0 0 14).wf = false ∧ (Instr.pdblj 14 0).wf = false
    ∧ (Instr.pdblj 0 15).wf = false := by decide

theorem test_wellformed_limits :
    (Instr.madd 15 15 15).wf = true ∧ (Instr.padd 14 14 14).wf = true ∧ (Instr.paddj 13 13 13).wf = true
    ∧ (Instr.smul 14 14 15).wf = true ∧ (Instr.paff 14 13).wf = true ∧ (Instr.pjac 13 14).wf = true := by decide

/-! ### Decoding: spec/95 section 2.3, every legal word and every illegal one -/

theorem test_decode_field :
    decode 0x00000000 = .ok .nop ∧ decode 0x00000DC1 = .ok (.mov 7 3) ∧ decode 0x00000402 = .ok (.mred 0 1)
    ∧ decode 0x00008403 = .ok (.madd 0 1 2) ∧ decode 0x00037BC4 = .ok (.msub 15 14 13)
    ∧ decode 0x000084C5 = .ok (.mmul 3 1 2) ∧ decode 0x00001546 = .ok (.minv 5 5) := by decide +kernel

theorem test_decode_point :
    decode 0x00003810 = .ok (.pchk 14) ∧ decode 0x00003B51 = .ok (.pjac 13 14) ∧ decode 0x00003792 = .ok (.paff 14 13)
    ∧ decode 0x00037753 = .ok (.paddj 13 13 13) ∧ decode 0x00000354 = .ok (.pdblj 13 0)
    ∧ decode 0x0003BB95 = .ok (.padd 14 14 14) ∧ decode 0x00000396 = .ok (.pdbl 14 0) := by decide +kernel

theorem test_decode_scalar_codec :
    decode 0x0003F398 = .ok (.smul 14 12 15) ∧ decode 0x00003F99 = .ok (.sbmul 14 15)
    ∧ decode 0x0000381C = .ok (.penc 14) ∧ decode 0x0000039D = .ok (.pdec 14) := by decide +kernel

theorem test_decode_illegal_operands :
    decode 0x00000391 = .error .tripleRange ∧ decode 0x000003D1 = .error .tripleRange
    ∧ decode 0x00003812 = .error .tripleRange ∧ decode 0x00003FD6 = .error .pairRange
    ∧ decode 0x0000005C = .error .unusedField ∧ decode 0x0000041D = .error .unusedField
    ∧ decode 0x000003C0 = .error .unusedField ∧ decode 0x00004000 = .error .unusedField := by decide +kernel

theorem test_decode_illegal_words :
    decode 0x00000017 = .error .reservedOpcode ∧ decode 0x0000001A = .error .reservedOpcode
    ∧ decode 0x0000001E = .error .reservedOpcode ∧ decode 0x00000020 = .error .reservedOpcode
    ∧ decode 0x0000003F = .error .reservedOpcode ∧ decode 0x00040000 = .error .reservedBits
    ∧ decode 0x80000000 = .error .reservedBits ∧ decode 0xFFFFFFFF = .error .reservedBits := by decide +kernel

/-- 30 R126, R129: of the 64 opcodes, 18 are assigned. -/
theorem test_decode_opcode_count :
    ((List.range 64).filter fun n => (opcodeRow n 0 0 0).isSome).length = 18 := by decide +kernel

/-- The examples of 30 R132, both ways. -/
theorem test_encode :
    encode (.mmul 3 1 2) = 0x000084C5 ∧ encode (.paddj 6 0 3) = 0x0000C193 ∧ encode (.sbmul 4 0) = 0x00000119
    ∧ encode (.pdec 6) = 0x0000019D := by decide +kernel

theorem test_table_word :
    decodeTableWord 32 0x8403 = some (.madd 0 1 2) ∧ decodeTableWord 32 0x3F = none := by decide +kernel

/-! ### The assembler: 30 R132, R133 -/

theorem test_assemble_examples :
    assembleLine "MMUL v3, v1, v2".toList = some 0x000084C5 ∧ assembleLine "PADDJ v6, v0, v3".toList = some 0x0000C193
    ∧ assembleLine "SBMUL v4, v0".toList = some 0x00000119 ∧ assembleLine "PDEC v6".toList = some 0x0000019D := by
  decide +kernel

theorem test_assemble_forms :
    assembleLine "  padd v4:v5, v0, v2:v3 ; a comment".toList = some 0x00008115
    ∧ assembleLine "PADDJ v6:v8, v0:v2, v3".toList = some 0x0000C193 ∧ assembleLine "NOP".toList = some 0
    ∧ readLine "; only a comment".toList = some none := by decide +kernel

theorem test_assemble_errors :
    assembleLine "PADD v4:v6, v0, v2".toList = none ∧ assembleLine "MOV v0:v1, v2".toList = none
    ∧ assembleLine "PCHK v15:v0".toList = none ∧ assembleLine "MOV v0, v16".toList = none
    ∧ assembleLine "MADD v0, v1".toList = none ∧ assembleLine "PMUL v0".toList = none := by decide +kernel

theorem test_assemble_pseudo :
    assembleLine "MSQR v1, v5".toList = some (encode (.mmul 1 5 5))
    ∧ assembleLine "MDBL v1, v5".toList = some (encode (.madd 1 5 5))
    ∧ assembleLine "MCLR v1, v5".toList = some (encode (.msub 1 5 5)) := by decide +kernel

/-! ### Field commands: spec/95 section 2.1 -/

theorem test_nop : vector 0x00000000 t23 [] = some ([], 0x2) := by decide +kernel

/-- NOP does not check parameters: 40 R162. -/
theorem test_nop_bad_param : vector 0x00000000 State.reset [] = some ([], 0x2) := by decide +kernel

theorem test_mov : vector 0x00000DC1 (withV [(3, 12345)] t23) [7, 3] = some ([12345, 12345], 0x2) := by decide +kernel

theorem test_mov_no_check : vector 0x00000DC1 (withV [(3, 5)] (withP 24 t23)) [7] = some ([5], 0x2) := by decide +kernel

theorem test_mred : vector 0x00000402 (withV [(1, 100)] t23) [0] = some ([8], 0x2) := by decide +kernel

theorem test_mred_all_ones : vector 0x00000402 (withV [(1, 2 ^ 576 - 1)] t23) [0] = some ([15], 0x2) := by
  decide +kernel

theorem test_madd : vector 0x00008403 (withV [(1, 20), (2, 5)] t23) [0] = some ([2], 0x2) := by decide +kernel

theorem test_madd_unreduced : vector 0x00008403 (withV [(1, 30), (2, 30)] t23) [0] = some ([14], 0x2) := by decide +kernel

theorem test_msub : vector 0x00008404 (withV [(1, 5), (2, 20)] t23) [0] = some ([8], 0x2) := by decide +kernel

theorem test_msub_two_moduli : vector 0x00008404 (withV [(1, 0), (2, 46)] t23) [0] = some ([0], 0x2) := by decide +kernel

theorem test_mmul : vector 0x00008405 (withV [(1, 7), (2, 10)] t23) [0] = some ([1], 0x2) := by decide +kernel

theorem test_mmul_same : vector 0x00004445 (withV [(1, 5)] t23) [1] = some ([2], 0x2) := by decide +kernel

theorem test_minv :
    vector 0x00000406 (withV [(1, 10)] t23) [0] = some ([7], 0x2)
    ∧ vector 0x00000406 (withV [(1, 7)] { withP 15 t23 with bitsize := 4 }) [0] = some ([13], 0x2) := by decide +kernel

theorem test_minv_none :
    vector 0x00000406 (withV [(0, 9), (1, 23)] t23) [0] = some ([9], 0x302)
    ∧ vector 0x00000406 (withV [(0, 9), (1, 6)] { withP 15 t23 with bitsize := 4 }) [0] = some ([9], 0x302) := by
  decide +kernel

/-- 60 R323: each part of the parameter check. -/
theorem test_bad_params :
    vector 0x00008403 (withP 24 t23) [] = some ([], 0x202) ∧ vector 0x00008403 (withP 1 t23) [] = some ([], 0x202)
    ∧ vector 0x00008403 { t23 with bitsize := 0 } [] = some ([], 0x202)
    ∧ vector 0x00008403 { t23 with bitsize := 4 } [] = some ([], 0x202)
    ∧ vector 0x00008403 { t23 with bitsize := 577 } [] = some ([], 0x202)
    ∧ vector 0x00008403 { t23 with bitsize := 576 } [] = some ([], 0x2) := by decide +kernel

theorem test_illegal :
    vector 0x0000003F (withP 24 t23) [] = some ([], 0x102) ∧ vector 0x00048403 t23 [] = some ([], 0x102)
    ∧ vector 0x00000040 t23 [] = some ([], 0x102) ∧ vector 0x00004406 t23 [] = some ([], 0x102) := by decide +kernel

/-! ### Point commands: spec/95 section 2.2 -/

theorem test_pchk :
    vector 0x00000010 (withV [(0, 2), (1, 7)] t23) [] = some ([], 0x6)
    ∧ vector 0x00000010 (withV [(0, 25), (1, 30)] t23) [] = some ([], 0x6) := by decide +kernel

theorem test_pchk_off :
    vector 0x00000010 (withV [(0, 2), (1, 8)] t23) [] = some ([], 0x2)
    ∧ vector 0x00000010 t23 [] = some ([], 0x2)
    ∧ vector 0x00000010 { t23 with prm := { t23.prm with b := 23 } } [] = some ([], 0x6) := by decide +kernel

theorem test_pjac : vector 0x00000111 (withV [(0, 2), (1, 7)] t23) [4, 5, 6] = some ([2, 7, 1], 0x2) := by decide +kernel

theorem test_pjac_sentinel :
    vector 0x00000111 (withV [(6, 9)] t23) [4, 5, 6] = some ([0, 0, 0], 0x2)
    ∧ vector 0x00000111 (withV [(0, 23)] t23) [4, 5, 6] = some ([23, 0, 1], 0x2) := by decide +kernel

theorem test_paff :
    vector 0x00000112 (withV [(0, 8), (1, 56), (2, 2)] t23) [4, 5] = some ([2, 7], 0x2)
    ∧ vector 0x00000012 (withV [(0, 8), (1, 56), (2, 2)] t23) [0, 1, 2] = some ([2, 7, 2], 0x2) := by decide +kernel

theorem test_paff_z :
    vector 0x00000112 (withV [(0, 5), (1, 6), (4, 9), (5, 9)] t23) [4, 5] = some ([0, 0], 0x2)
    ∧ vector 0x00000112 (withV [(0, 5), (1, 6), (2, 23), (4, 9)] t23) [4] = some ([9], 0x302) := by decide +kernel

theorem test_paddj :
    vector 0x0000C193 (withV [(0, 2), (1, 7), (2, 1), (3, 20), (4, 11), (5, 1)] t23) [6, 7, 8] = some ([3, 20, 13], 0x2)
    ∧ vector 0x0000C013 (withV [(0, 2), (1, 7), (2, 1), (3, 20), (4, 11), (5, 1)] t23) [0, 1, 2]
      = some ([3, 20, 13], 0x2)
    ∧ vector 0x0000C193 (withV [(0, 2), (1, 7), (2, 1), (3, 8), (4, 56), (5, 2)] t23) [6, 7, 8]
      = some ([10, 8, 14], 0x2) := by decide +kernel

theorem test_paddj_infinity :
    vector 0x0000C193 (withV [(0, 5), (1, 6), (3, 30), (4, 11), (5, 1)] t23) [6, 7, 8] = some ([30, 11, 1], 0x2)
    ∧ vector 0x0000C193 (withV [(0, 2), (1, 7), (2, 1), (3, 30), (4, 11)] t23) [6, 7, 8] = some ([2, 7, 1], 0x2)
    ∧ vector 0x0000C193 (withV [(0, 5), (1, 6), (3, 7), (4, 8)] t23) [6, 7, 8] = some ([7, 8, 0], 0x2)
    ∧ vector 0x0000C193 (withV [(0, 2), (1, 7), (2, 1), (3, 2), (4, 16), (5, 1)] t23) [6, 7, 8]
      = some ([2, 10, 0], 0x2) := by decide +kernel

theorem test_pdblj : vector 0x00000114 (withV [(0, 2), (1, 7), (2, 1)] t23) [4, 5, 6] = some ([10, 8, 14], 0x2) := by
  decide +kernel

theorem test_pdblj_zero :
    vector 0x00000114 (withV [(0, 5), (1, 6)] t23) [4, 5, 6] = some ([22, 7, 0], 0x2)
    ∧ vector 0x00000114 (withV [(0, 4), (2, 1)] t11) [4, 5, 6] = some ([1, 10, 0], 0x2) := by decide +kernel

theorem test_padd :
    vector 0x00008115 (withV [(0, 2), (1, 7), (2, 20), (3, 11)] t23) [4, 5] = some ([9, 17], 0x2)
    ∧ vector 0x00008115 (withV [(0, 2), (1, 7), (2, 2), (3, 7)] t23) [4, 5] = some ([20, 11], 0x2) := by decide +kernel

theorem test_padd_infinity :
    vector 0x00008115 (withV [(0, 2), (1, 7), (2, 2), (3, 16), (4, 9)] t23) [4, 5] = some ([0, 0], 0x2)
    ∧ vector 0x00008115 (withV [(0, 25), (1, 7)] t23) [4, 5] = some ([2, 7], 0x2)
    ∧ vector 0x00008115 (withV [(2, 2), (3, 7)] t23) [4, 5] = some ([2, 7], 0x2) := by decide +kernel

theorem test_pdbl : vector 0x00000116 (withV [(0, 2), (1, 7)] t23) [4, 5] = some ([20, 11], 0x2) := by decide +kernel

theorem test_pdbl_order_two : vector 0x00000116 (withV [(0, 4), (4, 9)] t11) [4, 5] = some ([0, 0], 0x2) := by
  decide +kernel

/-! ### Scalar commands: spec/95 sections 2.4 and 2.5 -/

theorem test_smul :
    vector 0x00008118 (withV [(0, 2), (1, 7), (2, 5)] t23) [4, 5] = some ([0, 22], 0x2)
    ∧ vector 0x00008118 (withV [(0, 2), (1, 7), (2, 261)] t23) [4, 5] = some ([0, 22], 0x2)
    ∧ vector 0x00008118 (withV [(0, 2), (1, 7), (2, 23), (4, 9)] t23) [4, 5] = some ([0, 0], 0x2)
    ∧ vector 0x00008058 (withV [(0, 2), (1, 7), (2, 3)] t23) [1, 2] = some ([9, 17], 0x2) := by decide +kernel

theorem test_smul_length :
    vector 0x00008118 (withV [(0, 2), (1, 7), (2, 5)] { t23 with klen := 72 }) [4, 5] = some ([0, 22], 0x2)
    ∧ vector 0x00008118 (withV [(0, 2), (1, 7), (2, 5), (4, 9)] { t23 with klen := 73 }) [4] = some ([9], 0x502)
    ∧ vector 0x00008118 (withV [(0, 2), (1, 7), (2, 5), (4, 9)] { t23 with klen := 0 }) [4, 5] = some ([0, 0], 0x2) := by
  decide +kernel

theorem test_sbmul :
    vector 0x00000119 (withV [(0, 3)] t23) [4, 5] = some ([9, 17], 0x2)
    ∧ vector 0x00000119 (withV [(0, 18)] t23) [4, 5] = some ([0, 1], 0x2)
    ∧ vector 0x00000119 (withV [(0, 2)] { p256 with klen := 1 }) [4, 5]
      = some ([0x7CF27B188D034F7E8A52380304B51AC3C08969E277F21B35A60B48FC47669978,
        0x07775510DB8ED040293D9AC69F7430DBBA7DADE63CE982299E04B79D227873D1], 0x2)
    ∧ vector 0x00000119 (withV [(0, p256.prm.n - 1)] p256) [4, 5]
      = some ([0x6B17D1F2E12C4247F8BCE6E563A440F277037D812DEB33A0F4A13945D898C296,
        0xB01CBD1C01E58065711814B583F061E9D431CCA994CEA1313449BF97C840AE0A], 0x2) := by decide +kernel

theorem test_sbmul_errors :
    vector 0x00000119 (withV [(0, 3)] { t23 with klen := 73 }) [4] = some ([0], 0x502)
    ∧ vector 0x00000119 (withV [(0, 3)] { withP 22 t23 with klen := 73 }) [4] = some ([0], 0x202) := by decide +kernel

/-! ### Codec: spec/95 section 2.6 -/

theorem test_penc :
    codecVector 0x0000001C (withV [(0, 2), (1, 7)] t23) 4 = some ([some 4, some 2, some 7, none], 3, 0x2)
    ∧ codecVector 0x0000001C (withV [(0, 5), (1, 0x1234)] { t23 with bitsize := 16 }) 6
      = some ([some 4, some 0, some 5, some 0x12, some 0x34, none], 5, 0x2) := by decide +kernel

theorem test_penc_range :
    codecVector 0x0000001C (withBuf [9, 9, 9] 7 (withV [(0, 256), (1, 7)] t23)) 3
      = some ([some 9, some 9, some 9], 7, 0x402)
    ∧ codecVector 0x0000001C (withV [(0, 255), (1, 7)] t23) 3 = some ([some 4, some 255, some 7], 3, 0x2) := by
  decide +kernel

theorem test_pdec :
    vector 0x0000019D (withBuf [4, 2, 7] 3 t23) [6, 7] = some ([2, 7], 0x6)
    ∧ vector 0x0000019D (withBuf [4, 0, 5, 0x12, 0x34] 5 { t23 with bitsize := 16 }) [6, 7]
      = some ([5, 0x1234], 0x6) := by decide +kernel

theorem test_pdec_malformed :
    vector 0x0000019D (withBuf [4, 2, 7] 2 (withV [(6, 1), (7, 1)] t23)) [6, 7] = some ([1, 1], 0x2)
    ∧ vector 0x0000019D (withBuf [3, 2, 7] 3 (withV [(6, 1), (7, 1)] t23)) [6, 7] = some ([1, 1], 0x2)
    ∧ vector 0x0000019D (withBuf [4, 2, 7] 0xFFFF (withV [(6, 1), (7, 1)] t23)) [6, 7] = some ([1, 1], 0x2)
    ∧ vector 0x0000019D (withBuf [4, 2, 7] 3 (withP 22 t23)) [6] = some ([0], 0x202) := by decide +kernel

/-! ### The bus: spec/95 section 2.7, one event each -/

/-- What a host read of an offset returns. -/
def readWord (s : State) (off : Nat) : Option (Option Word) :=
  (nextOf (step { s with inputs := [.read (s.base + off) 4] })).map (·.rdata)

/-- The state a host write leaves. -/
def writeWord (s : State) (off : Nat) (x : Word) : Option State :=
  nextOf (step { s with inputs := [.write (s.base + off) 4 x] })

/-- B1, B3, B4, B5, B20. -/
theorem test_reads :
    readWord State.reset 0x000 = some (some 0x45430100) ∧ readWord State.reset 0x004 = some (some 0x00100240)
    ∧ readWord State.reset 0x010 = some (some 0) ∧ readWord (withV [(3, 2 ^ 576 - 1)] t23) 0x11C8 = some (some 0)
    ∧ readWord t23 0x024 = some (some 0) ∧ readWord busy 0x013 = some (some 1)
    ∧ readWord t23 0x008 = some (some 0) := by decide +kernel

/-- B2: the second word of V3. -/
theorem test_word_order : (writeWord (withV [(3, 5)] t23) 0x1184 1).map (readV · 3) = some 0x100000005 := by
  decide +kernel

/-- B6. -/
theorem test_narrow :
    step { t23 with inputs := [.read 0x010 1] } = .refused (.accessWidth 1)
    ∧ step { t23 with inputs := [.write 0x1000 2 0] } = .refused (.accessWidth 2) := ⟨rfl, rfl⟩

/-- B7: an acceptance, and the STATUS that follows it. -/
theorem test_accept : (writeWord t23 0x00C 0x402).map (fun t => (statusWord t).toNat) = some 1 := by decide +kernel

/-- B8: a lost write. -/
theorem test_busywr :
    (writeWord busy 0x1080 5).map (fun t => ((statusWord t).toNat, single t 1)) = some (9, 0) := by decide +kernel

/-- B9. -/
theorem test_busy_reads :
    readWord (withV [(0, 77)] busy) 0x1000 = some (some 0) ∧ readWord busy 0x00C = some (some 0x402)
    ∧ readWord busy 0x018 = some (some 5) := by decide +kernel

/-- B10. -/
theorem test_busy_quiet_writes :
    (writeWord busy 0x1048 7).map (fun t => (statusWord t).toNat) = some 1
    ∧ (writeWord busy 0x014 1).map (fun t => ((statusWord t).toNat, t.doneIe)) = some (1, true) := by decide +kernel

/-- B11: the completion after B8 and B10. -/
theorem test_completion :
    (nextOf (step { busy with doneIe := true, status := ⟨.ok, true, false, false⟩ })).map
      (fun t => ((statusWord t).toNat, irq t, single t 0)) = some (0xA, true, 8) := by decide +kernel

/-- B12, B13. -/
theorem test_status_clear :
    (writeWord { t23 with doneIe := true, status := ⟨.ok, true, false, true⟩ } 0x010 8).map
      (fun t => ((statusWord t).toNat, irq t)) = some (2, true)
    ∧ (writeWord { t23 with doneIe := true, status := ⟨.ok, false, false, true⟩ } 0x010 2).map
      (fun t => ((statusWord t).toNat, irq t)) = some (0, false) := by decide +kernel

/-- B14: acceptance keeps BUSYWR. -/
theorem test_busywr_stays :
    (writeWord { t23 with status := ⟨.ok, true, false, false⟩ } 0x00C 0).map
      (fun t => ((statusWord t).toNat, (statusWord (engineStep t)).toNat)) = some (9, 0xA) := by decide +kernel

/-- B16: soft reset while BUSY. -/
theorem test_soft_reset :
    (writeWord (withV [(4, 1)] { busy with doneIe := true, codecLen := 3 }) 0x008 1).map
      (fun t => ([statusWord t, t.cmd], [t.doneIe, irq t], [t.bitsize.toNat, t.klen.toNat, t.codecLen.toNat, single t 4]))
      = some ([0, 0], [false, false], [0, 0, 0, 1]) := by decide +kernel

/-- B19, B20. -/
theorem test_write_ignored :
    writeWord t23 0x000 0 = some t23 ∧ writeWord t23 0x004 0 = some t23 ∧ writeWord t23 0x008 0 = some t23 := by
  decide +kernel

/-- 20 R86 and 43 R291: BUF word 0 after PENC of (2, 7), read with BUF[3] written. -/
theorem test_buf_lanes :
    readWord (withBuf [4, 2, 7, 0x55] 3 t23) 0x2000 = some (some 0x55070204)
    ∧ (writeWord t23 0x2090 0x12345678).map (fun t => (Memory.read t.buf 144, Memory.read t.buf 147))
      = some (some 0x78, some 0x12) := by decide +kernel

/-- The edges of the address map (20 R82). -/
theorem test_map_edges :
    [0x023, 0x024, 0x0FF, 0x100, 0x147, 0x148, 0x347, 0x37F, 0x380, 0xFFF].map (target Config.ecCore10)
      = [.codecLen, .reserved, .reserved, .prm .p 0, .prm .p 17, .reserved, .prm .gy 17, .reserved, .reserved, .reserved]
    ∧ [0x1000, 0x17C7, 0x17C8, 0x1800, 0x1FFF, 0x2000, 0x2093, 0x2094, 0x3FFF].map (target Config.ecCore10)
      = [.v 0 0, .v 15 17, .reserved, .reserved, .reserved, .buf 0, .buf 36, .reserved, .reserved] := by decide +kernel

/-- 00 R8, 20 R82 at the narrowest width, 64 bits (2 words, 20 BUF bytes), and the widest, 1024 (32 words, 260 BUF bytes). -/
theorem test_map_edges_widths :
    [0x107, 0x108, 0x2013, 0x2014].map (target ⟨0⟩) = [.prm .p 1, .reserved, .buf 4, .reserved]
    ∧ [0x17F, 0x180, 0x17FF, 0x2103, 0x2104].map (target ⟨30⟩) = [.prm .p 31, .prm .n 0, .v 15 31, .buf 64, .reserved] := by
  decide +kernel

/-- The values of EC-CORE 1.0 (00 R8, 10 R38). -/
theorem test_parameters :
    Config.wBits Config.ecCore10 = 576 ∧ Config.bigWords Config.ecCore10 = 18 ∧ Config.scalarBytes Config.ecCore10 = 72
    ∧ Config.bufBytes Config.ecCore10 = 148 ∧ Config.bufWords Config.ecCore10 = 37
    ∧ Config.cfgWord Config.ecCore10 = 0x00100240 := by decide +kernel

/-- A block of 64 bits: KLEN ≤ 8, BITSIZE ≤ 64 (60 R323, 42 R261), and T23 works on it. -/
theorem test_narrow_block :
    vector 0x00008118 (withV [(0, 2), (1, 7), (2, 5)] { t23 with width := ⟨0⟩, klen := 8 }) [4, 5] = some ([0, 22], 0x2)
    ∧ vector 0x00008118 { t23 with width := ⟨0⟩, klen := 9 } [] = some ([], 0x502)
    ∧ vector 0x00008403 { t23 with width := ⟨0⟩, bitsize := 65 } [] = some ([], 0x202) := by decide +kernel

/-- A run of one command ends with the engine IDLE, and one with a narrow access has no end state (70 R385). -/
theorem test_run :
    (nextOf (wholeRun { t23 with inputs := [.write 0x00C 4 0] })).map (fun t => (runOver t, (statusWord t).toNat))
      = some (true, 2)
    ∧ runOver { t23 with inputs := [.engineTurn] } = true ∧ runOver { t23 with inputs := [.read 0x010 4] } = false
    ∧ runOver busy = false
    ∧ nextOf (wholeRun { t23 with inputs := [.read 0x010 1] }) = none := by decide +kernel

/-- Program 1 of spec/95 section 3 starts on T23 from a clean entry with four V registers loaded (70 R384). -/
theorem test_clean_entry :
    CleanEntry [] ⟨[(0, 2), (1, 7), (2, 20), (3, 11)], [(.p, 23), (.b, 1)], []⟩
      (withV [(0, 2), (1, 7), (2, 20), (3, 11)] t23) := by
  refine ⟨rfl, rfl, rfl, List.forall_mem_cons.2 ⟨?_, List.forall_mem_cons.2 ⟨?_, List.forall_mem_cons.2 ⟨?_,
    List.forall_mem_cons.2 ⟨?_, fun _ h => nomatch h⟩⟩⟩⟩, List.forall_mem_cons.2 ⟨?_, List.forall_mem_cons.2 ⟨?_,
    fun _ h => nomatch h⟩⟩, rfl⟩ <;> decide +kernel

/-- The first step after reset with a word placed runs it; with nothing placed the machine waits (70 R380). -/
theorem test_first_step :
    nextOf (step (State.reset.withFetchWord 32 0)) = nextOf (exec .nop State.reset) ∧ step State.reset = .next State.reset :=
  ⟨by decide +kernel, rfl⟩

/-- 30 R134: `ldv` is 18 writes, the first two of spec/95 B2; `exec` is one write to CMD, then polls. -/
theorem test_host_ops :
    (ldv Config.ecCore10 0 3 0x100000005).take 2 = [.write 0x1180 4 5, .write 0x1184 4 1] ∧ (ldv Config.ecCore10 0 3 0x100000005).length = 18
    ∧ ldbuf 0 [4, 2, 7] = [.write 0x2000 4 0x00070204]
    ∧ execWait 0 (.mred 0 1) 1 = [.write 0x00C 4 0x402, .read 0x010 4, .engineTurn, .read 0x010 4] := by decide +kernel

/-! ### Witnesses: for every obligation with hypotheses, values that meet all of them, one for each clause -/

/-- T23 with G and 2G in the pairs v0 and v2. -/
def twoPoints : State := withV [(0, 2), (1, 7), (2, 20), (3, 11)] t23

/-- T23 with the top registers loaded, for operands at the end of their range. -/
def topPoint : State := withV [(13, 2), (14, 7), (15, 1)] t23

/-- A composite modulus, which the parameter check accepts (60 R323). -/
def p15 : State := { withP 15 t23 with bitsize := 4 }

theorem witness_DecodeOfEncode : (Instr.padd 14 14 14).wf = true ∧ (Instr.paddj 13 13 13).wf = true := by decide

theorem witness_ListingAssembles : (Instr.smul 14 14 15).wf = true ∧ (Instr.nop).wf = true := by decide

theorem witness_EncodeOfDecode : decode 0x00037BC4 = .ok (.msub 15 14 13) := by decide +kernel

/-- One word for each disjunct, each illegal by that disjunct alone. -/
theorem witness_IllegalWordsCompleteIllegal :
    isBusy t23 = false
    ∧ decode 0x00040000 = .error .reservedBits ∧ decode 0x00000007 = .error .reservedOpcode
    ∧ decode 0x00000040 = .error .unusedField ∧ decode 0x0000041D = .error .unusedField
    ∧ decode 0x00004406 = .error .unusedField ∧ decode 0x000003D6 = .error .pairRange
    ∧ decode 0x00003C10 = .error .pairRange ∧ decode 0x0003C015 = .error .pairRange
    ∧ decode 0x00000391 = .error .tripleRange ∧ decode 0x00003812 = .error .tripleRange
    ∧ decode 0x00038013 = .error .tripleRange ∧ decode 0x00037753 = .ok (.paddj 13 13 13) := by decide +kernel

/-- The last byte address of CMD's word. -/
theorem witness_StepRunsDecodedCommand :
    (0x3FFF < 0x4000 ∧ (at4000 (.write 0x7FFF 4 1)).inputs = .write ((at4000 (.write 0x7FFF 4 1)).base + 0x3FFF) 4 1 :: [])
    ∧
    3 < 4 ∧ (at4000 (.write 0x400F 4 0x8403)).inputs = .write ((at4000 (.write 0x400F 4 0x8403)).base + 0x00C + 3) 4 0x8403 :: []
    ∧ isBusy (at4000 (.write 0x400F 4 0x8403)) = false ∧ decode 0x8403 = .ok (.madd 0 1 2) := by decide +kernel

/-- The two ends of each range; what the map answers there is test_map_edges. -/
theorem witness_AddressMap :
    3 < 4 ∧ 17 < Config.bigWords Config.ecCore10 ∧ 31 < Config.bigWords ⟨30⟩ ∧ 36 < Config.bufWords Config.ecCore10
    ∧ 64 < Config.bufWords ⟨30⟩ ∧ (0x024 ≤ 0x024 ∧ 0x0FF < 0x100)
    ∧ (4 * Config.bigWords Config.ecCore10 ≤ 0x48 ∧ 0x7F < 0x80) ∧ (0x380 ≤ 0x380 ∧ 0xFFF < 0x1000)
    ∧ (0x1800 ≤ 0x1800 ∧ 0x1FFF < 0x2000) ∧ (0x2000 + Config.bufBytes Config.ecCore10 ≤ 0x2094 ∧ 0x3FFF < 0x4000) := by
  decide +kernel

/-- The last address below the window, the first above it. -/
theorem witness_OutsideWindowReachesNothing :
    (0x3FFF < (at4000 (.read 0x3FFF 4)).base ∧ (at4000 (.read 0x3FFF 4)).inputs = .read 0x3FFF 4 :: [])
    ∧ ((at4000 (.write 0x8000 1 5)).base + 0x4000 ≤ 0x8000
      ∧ (at4000 (.write 0x8000 1 5)).inputs = .write 0x8000 1 5 :: []) := by decide +kernel

theorem witness_NarrowAccessRefused :
    (0x3FFF < 0x4000 ∧ 2 ≠ 4 ∧ (at4000 (.read 0x7FFF 2)).inputs = .read ((at4000 (.read 0x7FFF 2)).base + 0x3FFF) 2 :: [])
    ∧ (0 < 0x4000 ∧ 1 ≠ 4
      ∧ (at4000 (.write 0x4000 1 5)).inputs = .write ((at4000 (.write 0x4000 1 5)).base + 0) 1 5 :: []) := by
  decide +kernel

theorem witness_BigWordAccess : 
    isBusy t23 = false ∧ 17 < Config.bigWords t23.width ∧ 0 < Config.bigWords t23.width := by decide +kernel

theorem witness_AllWordsInAnyOrder :
    Fits Config.ecCore10 (2 ^ 576 - 1) ∧ Fits Config.ecCore10 5
    ∧ ((List.range (Config.bigWords Config.ecCore10)).reverse).Perm (List.range (Config.bigWords Config.ecCore10)) :=
  ⟨by unfold Fits; decide +kernel, by unfold Fits; decide +kernel, List.reverse_perm _⟩

/-- The last word of BUF, its last lane, the bytes on both sides of a word, and a byte that holds a value. -/
theorem witness_BufByteLanes :
    isBusy (withBuf [4, 2, 7] 3 t23) = false ∧ 36 < Config.bufWords t23.width ∧ 3 < 4 ∧ (143 < 4 * 36 ∨ 4 * 36 + 4 ≤ 143)
    ∧ (148 < 4 * 36 ∨ 4 * 36 + 4 ≤ 148) ∧ Memory.read (withBuf [4, 2, 7] 3 t23).buf (4 * 0 + 2) = some 7 := by
  decide +kernel

theorem witness_WritesAndBusy :
    isBusy busy = true ∧ Target.id ∈ [Target.id, .cfg, .reserved] ∧ isBusy t23 = false
    ∧ ∃ t, writeEffect .irqen 1 { t23 with status := ⟨.ok, true, false, false⟩ } = .next t ∧ t.status.busywr = true :=
  ⟨by decide, by decide, by decide, _, rfl, rfl⟩

theorem witness_ReadsWhileBusy : isBusy busy = true := by decide

theorem witness_ReservedOffsets :
    (0x024 < 0x4000 ∧ target (at4000 (.read 0x4024 4)).width 0x024 = .reserved
      ∧ (at4000 (.read 0x4024 4)).inputs = .read ((at4000 (.read 0x4024 4)).base + 0x024) 4 :: [])
    ∧ (0x3FFF < 0x4000 ∧ target (at4000 (.write 0x7FFF 4 9)).width 0x3FFF = .reserved
      ∧ (at4000 (.write 0x7FFF 4 9)).inputs = .write ((at4000 (.write 0x7FFF 4 9)).base + 0x3FFF) 4 9 :: []) := by
  decide +kernel

theorem witness_ReadsHaveNoSideEffect :
    0x3FFF < 0x4000 ∧ (at4000 (.read 0x7FFF 4)).inputs = .read ((at4000 (.read 0x7FFF 4)).base + 0x3FFF) 4 :: [] := by
  decide +kernel

theorem witness_StatusWriteClears : isBusy busy = true := by decide

theorem witness_SoftReset :
    (at4000 (.write 0x4008 4 1)).inputs = .write ((at4000 (.write 0x4008 4 1)).base + 0x008) 4 1 :: [] := by decide +kernel

/-- Each clause of the interrupt line: busy, IDLE with a CMD write that is accepted, and the two written bits. -/
theorem witness_InterruptLine :
    isBusy busy = true ∧ (2 : Word).getLsbD 1 = true ∧ (1 : Word).getLsbD 0 = true ∧ isBusy t23 = false
    ∧ ∃ t, writeEffect .cmd 0 t23 = .next t :=
  ⟨by decide, by decide, by decide, by decide, next_of (by decide +kernel)⟩

theorem witness_CsrReadback : isBusy t23 = false := by decide

theorem witness_AcceptanceChangesOnly : ∃ t, exec (.padd 4 0 2) twoPoints = .next t := next_of (by decide +kernel)

/-- BUSY with nothing left, BUSY at an engine turn, IDLE at a turn; an outcome without and one with an error; a written
register, one not written. -/
theorem witness_CompletionStep :
    (busy.engine = .busy (writesV (toSingle 0 8)) ∧ busy.inputs = [])
    ∧ ({ busy with inputs := [.engineTurn] } : State).inputs = .engineTurn :: [] ∧ isBusy t23 = false ∧ t23.inputs = []
    ∧ (writesV (toSingle 0 8)).err = .ok ∧ ((writesV (toSingle 0 8)).vWrites.map Prod.fst).Nodup
    ∧ (0, toBig 8) ∈ (writesV (toSingle 0 8)).vWrites ∧ (1 : Reg) ∉ (writesV (toSingle 0 8)).vWrites.map Prod.fst
    ∧ ({ busy with engine := .busy (raiseError .range) } : State).engine = .busy (raiseError .range)
    ∧ (raiseError .range).err ≠ .ok := by
  refine ⟨⟨rfl, rfl⟩, rfl, rfl, rfl, rfl, by decide, by simp [writesV, toSingle], by decide, rfl, by decide⟩

theorem witness_ErrorsArePrecise :
    ∃ t, exec (.minv 0 1) t23 = .next t ∧ (engineStep t).status.err ≠ .ok :=
  next_with (fun t => (engineStep t).status.err ≠ .ok) (by decide +kernel)

/-- A next state, a register that is no destination, a command other than PENC, one that does not set RES, and the first byte
above the encoding. -/
theorem witness_CommandFrame :
    (∃ t, exec (.penc 0) twoPoints = .next t) ∧ (6 : Reg) ∉ destRegs (.padd 4 0 2) ∧ writesBuf (.padd 4 0 2) = false
    ∧ setsRes (.penc 0) = false ∧ 1 + 2 * byteLen twoPoints ≤ 3 := 
  ⟨next_of (by decide +kernel), by decide, rfl, rfl, by decide +kernel⟩

theorem witness_ErrorPriority :
    isBusy t23 = false ∧ (Instr.pjac 14 0).wf = false
    ∧ ((Instr.madd 0 1 2).wf = true ∧ checksParams (.madd 0 1 2) = true ∧ ¬((withP 24 t23).prm.p.toNat % 2 = 1))
    ∧ ((Instr.smul 4 0 2).wf = true ∧ t23.prm.p.toNat % 2 = 1 ∧ 3 ≤ t23.prm.p.toNat ∧ 1 ≤ t23.bitsize.toNat
      ∧ t23.bitsize.toNat ≤ Config.wBits t23.width ∧ t23.prm.p.toNat < 2 ^ t23.bitsize.toNat
      ∧ Config.scalarBytes t23.width < ({ t23 with klen := 73 } : State).klen.toNat) := by decide +kernel

theorem witness_ResultsAreReduced :
    (Instr.padd 4 0 2).wf = true
    ∧ ∃ t, exec (.padd 4 0 2) twoPoints = .next t ∧ (engineStep t).status.err = .ok ∧ (5 : Reg) ∈ destRegs (.padd 4 0 2) :=
  ⟨by decide, next_with (fun t => (engineStep t).status.err = .ok ∧ _) (by decide +kernel)⟩

/-- The first part of every result claim: a word with each opcode. -/
theorem witness_OpcodeMeans :
    [0x00000000#32, 0x00000DC1#32, 0x00000402#32, 0x00008403#32, 0x00037BC4#32, 0x000084C5#32, 0x00001546#32,
      0x00003810#32, 0x00003B51#32, 0x00003792#32, 0x00037753#32, 0x00000354#32, 0x0003BB95#32, 0x00000396#32,
      0x0003F398#32, 0x00003F99#32, 0x0000381C#32, 0x0000039D#32].map (fun w => w.extractLsb' 0 6)
    = [0x00#6, 0x01#6, 0x02#6, 0x03#6, 0x04#6, 0x05#6, 0x06#6, 0x10#6, 0x11#6, 0x12#6, 0x13#6, 0x14#6, 0x15#6, 0x16#6,
      0x18#6, 0x19#6, 0x1C#6, 0x1D#6] := by decide +kernel

/-- NOP, MOV. -/
theorem witness_NopMovResult : isBusy State.reset = false := by decide

/-- MRED, MADD, MSUB, MMUL: the check passes, or fails. -/
theorem witness_FieldResults :
    isBusy t23 = false ∧ paramsOk t23 = true ∧ isBusy State.reset = false ∧ paramsOk State.reset = false := by decide +kernel

theorem witness_MinvResult :
    (isBusy p15 = false ∧ paramsOk p15 = true)
    ∧ Nat.gcd ((readV (withV [(1, 7)] p15) 1).toNat % p15.prm.p.toNat) p15.prm.p.toNat = 1
    ∧ Nat.gcd ((readV (withV [(1, 6)] p15) 1).toNat % p15.prm.p.toNat) p15.prm.p.toNat ≠ 1
    ∧ paramsOk (withV [(1, 7)] p15) = true ∧ paramsOk State.reset = false := by decide +kernel

/-- PCHK, PJAC, PADDJ, PDBLJ at the last legal bases, with the check passed and failed. -/
theorem witness_PointResults :
    isBusy topPoint = false ∧ (14 : Reg).val ≤ 14 ∧ (13 : Reg).val ≤ 13 ∧ paramsOk topPoint = true
    ∧ isBusy State.reset = false ∧ paramsOk State.reset = false := by decide +kernel

theorem witness_PaffResult :
    isBusy t23 = false ∧ (14 : Reg).val ≤ 14 ∧ (13 : Reg).val ≤ 13
    ∧ (paramsOk t23 = true ∧ (readV t23 (13 + 2)).toNat = 0)
    ∧ (paramsOk topPoint = true ∧ Nat.gcd ((readV topPoint (13 + 2)).toNat % topPoint.prm.p.toNat) topPoint.prm.p.toNat = 1)
    ∧ (paramsOk (withV [(15, 46)] t23) = true ∧ (readV (withV [(15, 46)] t23) (13 + 2)).toNat ≠ 0
      ∧ Nat.gcd ((readV (withV [(15, 46)] t23) (13 + 2)).toNat % 23) 23 ≠ 1)
    ∧ paramsOk State.reset = false := by decide +kernel

/-- The four clauses of the sum: Z1 = 0, Z2 = 0, two forms of one point, and G + 2G and G + (−G). -/
theorem witness_AddJacobianFormula :
    3 ≤ 23 ∧ (⟨5, 6, 0⟩ : Jac).z = 0 ∧ ((⟨2, 7, 1⟩ : Jac).z ≠ 0 ∧ (⟨30, 11, 0⟩ : Jac).z = 0)
    ∧ ((2 * 2 ^ 2 : Int) ≡ 8 * 1 ^ 2 [ZMOD 23] ∧ (7 * 2 ^ 3 : Int) ≡ 56 * 1 ^ 3 [ZMOD 23])
    ∧ ¬((2 * 1 ^ 2 : Int) ≡ 20 * 1 ^ 2 [ZMOD 23] ∧ (7 * 1 ^ 3 : Int) ≡ 11 * 1 ^ 3 [ZMOD 23])
    ∧ ((2 * 1 ^ 2 : Int) ≡ 2 * 1 ^ 2 [ZMOD 23] ∧ ¬(7 * 1 ^ 3 : Int) ≡ 16 * 1 ^ 3 [ZMOD 23]) := by decide

theorem witness_DoubleJacobianFormula :
    3 ≤ 23 ∧ (⟨5, 6, 0⟩ : Jac).z = 0 ∧ 3 ≤ 11 ∧ 11 ∣ (⟨4, 0, 1⟩ : Jac).y ∧ 11 ∣ (⟨4, 22, 1⟩ : Jac).y := by decide

/-- Composite P = 15: (5, 5) doubles to a Z = 10 with no inverse. -/
theorem witness_PaddResult :
    (isBusy twoPoints = false ∧ paramsOk twoPoints = true ∧ addAffine 23 ⟨2, 7⟩ ⟨20, 11⟩ = some ⟨9, 17⟩)
    ∧ (isBusy p15 = false ∧ paramsOk p15 = true ∧ addAffine 15 ⟨5, 5⟩ ⟨5, 5⟩ = none)
    ∧ (14 : Reg).val ≤ 14 ∧ paramsOk State.reset = false := by decide +kernel

theorem witness_PdblResult :
    (isBusy twoPoints = false ∧ paramsOk twoPoints = true ∧ doubleAffine 23 ⟨2, 7⟩ = some ⟨20, 11⟩)
    ∧ (isBusy p15 = false ∧ paramsOk p15 = true ∧ doubleAffine 15 ⟨5, 5⟩ = none)
    ∧ (14 : Reg).val ≤ 14 ∧ paramsOk State.reset = false := by decide +kernel

theorem witness_DoubleIsSelfSum : 3 ≤ 3 := by decide

theorem witness_SumsStayOnCurve :
    Nat.Prime 23 ∧ 3 ≤ 23 ∧ ¬23 ∣ 1 ∧ isOnCurve 23 1 ⟨2, 7⟩ = true ∧ isOnCurve 23 1 ⟨20, 11⟩ = true
    ∧ (doubleAffine 23 ⟨2, 7⟩ = some ⟨20, 11⟩ ∧ (⟨20, 11⟩ : Affine) ≠ ⟨0, 0⟩)
    ∧ (addAffine 23 ⟨2, 7⟩ ⟨20, 11⟩ = some ⟨9, 17⟩ ∧ (⟨9, 17⟩ : Affine) ≠ ⟨0, 0⟩) :=
  ⟨by norm_num, by decide +kernel⟩

theorem witness_PrimeNeverNotInvertible :
    twoPoints.prm.p.toNat.Prime ∧ (∃ t, exec (.padd 4 0 2) twoPoints = .next t)
    ∧ (∃ t, exec (.pdbl 4 0) twoPoints = .next t) ∧ (∃ t, exec (.smul 4 0 2) twoPoints = .next t)
    ∧ ∃ t, exec (.sbmul 4 0) twoPoints = .next t :=
  ⟨(by decide +kernel : twoPoints.prm.p.toNat = 23) ▸ (by norm_num : Nat.Prime 23), next_of (by decide +kernel), next_of (by decide +kernel), next_of (by decide +kernel),
    next_of (by decide +kernel)⟩

/-- SMUL and SBMUL: a result, none (P = 15, scalar 2 of (5, 5)), the length at 72 and at 73, a failed check. -/
theorem witness_SmulSbmulResult :
    (isBusy t23 = false ∧ (14 : Reg).val ≤ 14 ∧ paramsOk t23 = true)
    ∧ (({ t23 with klen := 72 } : State).klen.toNat ≤ Config.scalarBytes t23.width ∧ scalarMult 23 ⟨2, 7⟩ 5 72 = some ⟨0, 22⟩)
    ∧ (paramsOk p15 = true ∧ scalarMult 15 ⟨5, 5⟩ 2 1 = none)
    ∧ Config.scalarBytes t23.width < ({ t23 with klen := 73 } : State).klen.toNat ∧ paramsOk State.reset = false := by decide +kernel

/-- The last bit of the loop, and the first. -/
theorem witness_ScalarMultLoop : 3 ≤ 23 ∧ 0 < 8 * 1 ∧ 7 < 8 * 1 := by decide

theorem witness_ScalarLength : 3 ≤ 23 ∧ 255 < 256 ^ 1 ∧ 1 ≤ 1 ∧ 1 ≤ 72 := by decide

theorem witness_ScalarOfSentinel : 3 ≤ 3 := by decide

/-- G on T23. -/
theorem witness_ScalarMultIsGroupMultiple :
    Fact (Nat.Prime 23) ∧ 3 ≤ 23 ∧ 2 < 23 ∧ 7 < 23 ∧ 255 < 256 ^ 1
    ∧ (⟨0, 0, 0, -3, (1 : Nat)⟩ : WeierstrassCurve (ZMod 23)).toAffine.Nonsingular ((2 : Nat) : ZMod 23) ((7 : Nat) : ZMod 23) := by
  refine ⟨⟨by norm_num⟩, by decide, by decide, by decide, by decide, ?_⟩
  rw [WeierstrassCurve.Affine.nonsingular_iff, WeierstrassCurve.Affine.equation_iff]
  decide

/-- A pair that fits, in the last base and with the widest coordinate; one that does not; a failed check. -/
theorem witness_PencResult :
    (isBusy topPoint = false ∧ (14 : Reg).val ≤ 14 ∧ paramsOk topPoint = true ∧ byteLen topPoint = 1)
    ∧ ((readV (withV [(14, 255)] topPoint) 14).toNat < 256 ^ 1 ∧ (readV topPoint (14 + 1)).toNat < 256 ^ 1)
    ∧ (paramsOk (withV [(15, 256)] topPoint) = true ∧ 256 ^ 1 ≤ (readV (withV [(15, 256)] topPoint) (14 + 1)).toNat)
    ∧ paramsOk State.reset = false := by decide +kernel

/-- The wrong length, the wrong tag, an encoding with its bytes, a failed check. -/
theorem witness_PdecResult :
    (isBusy (withBuf [4, 2, 7] 2 t23) = false ∧ (14 : Reg).val ≤ 14 ∧ paramsOk (withBuf [4, 2, 7] 2 t23) = true
      ∧ (withBuf [4, 2, 7] 2 t23).codecLen.toNat ≠ 1 + 2 * ((t23.bitsize.toNat + 7) / 8))
    ∧ ((withBuf [3, 2, 7] 3 t23).codecLen.toNat = 1 + 2 * ((t23.bitsize.toNat + 7) / 8)
      ∧ Memory.read (withBuf [3, 2, 7] 3 t23).buf 0 = some 3 ∧ (3 : Byte) ≠ 4#8)
    ∧ ((withBuf [4, 2, 7] 3 t23).codecLen.toNat = 1 + 2 * ((t23.bitsize.toNat + 7) / 8)
      ∧ Memory.read (withBuf [4, 2, 7] 3 t23).buf 0 = some 4#8 ∧ [(2 : Byte)].length = (t23.bitsize.toNat + 7) / 8
      ∧ (∀ i < 1, Memory.read (withBuf [4, 2, 7] 3 t23).buf (1 + i) = [(2 : Byte)][i]?)
      ∧ ∀ i < 1, Memory.read (withBuf [4, 2, 7] 3 t23).buf (1 + 1 + i) = [(7 : Byte)][i]?)
    ∧ paramsOk State.reset = false := by decide +kernel

/-- No byte at all, and the last byte of the encoding missing. -/
theorem witness_PdecStopsOnUnwrittenByte :
    (isBusy (withBuf [] 3 t23) = false ∧ (14 : Reg).val ≤ 14 ∧ paramsOk (withBuf [] 3 t23) = true
      ∧ (withBuf [] 3 t23).codecLen.toNat = 1 + 2 * byteLen (withBuf [] 3 t23)
      ∧ Memory.read (withBuf [] 3 t23).buf 0 = none)
    ∧ (Memory.read (withBuf [4, 2] 3 t23).buf 0 = some 4#8 ∧ 1 ≤ 2 ∧ 2 ≤ 2 * byteLen (withBuf [4, 2] 3 t23)
      ∧ Memory.read (withBuf [4, 2] 3 t23).buf 2 = none
      ∧ ∀ j < 2, 1 ≤ j → Memory.read (withBuf [4, 2] 3 t23).buf j ≠ none) := by decide +kernel

theorem witness_CodecRoundTrip :
    Ready topPoint ∧ (14 : Reg).val ≤ 14 ∧ (readV topPoint 14).toNat < 256 ^ byteLen topPoint
    ∧ (readV topPoint (14 + 1)).toNat < 256 ^ byteLen topPoint :=
  ⟨⟨by decide +kernel, by decide +kernel⟩, by decide +kernel⟩

/-- A BUSY state with the invariant, and a step of it. -/
theorem witness_StepKeepsInv : Inv busy ∧ ∃ t, step busy = .next t := by
  refine ⟨⟨by decide +kernel, fun _ => ⟨rfl, rfl, rfl⟩, ?_, by decide, ⟨0, rfl⟩, ?_, ?_⟩, next_of (by decide +kernel)⟩
  · intro p h
    cases h
    exact ⟨⟨fun h => absurd rfl h, by decide⟩,
      List.forall_mem_cons.2 ⟨by unfold Fits; decide +kernel, fun _ h => nomatch h⟩⟩
  · unfold Fits; decide +kernel
  · unfold Fits; intro r; cases r <;> decide +kernel

theorem witness_ResetHasInv : 0x4000 ∣ 0x8000 := by decide

theorem witness_PowerOnReset :
    Target.status ∈ [Target.ctrl, .cmd, .status, .irqen, .bitsize, .klen, .codecLen]
    ∧ ({ busy with inputs := [.powerOn] } : State).inputs = .powerOn :: [] := ⟨by decide, rfl⟩

/-- A step that faults (PDEC of an empty BUF), one that is refused, and a run with an end state. -/
theorem witness_OnlyStops :
    step ((withBuf [] 3 t23).withFetchWord 32 0x39D) = .fault (.bufByteUnwritten 0)
    ∧ step (at4000 (.read 0x4010 1)) = .refused (.accessWidth 1) ∧ ∃ e, wholeRun busy = .next e :=
  ⟨fault_of (by decide +kernel), rfl, next_of (by decide +kernel)⟩

/-- Two legal words as the oldest event of the schedule. -/
theorem witness_step_next : SafeStep (State.reset.withFetchWord 32 0) ∧ SafeStep State.reset :=
  ⟨next_of (by decide +kernel), next_of (by decide +kernel)⟩

end Sys2Proof.Tests
end

section
/-! PROOFS. What a completion does to V, BUF and STATUS, stated once for every pending outcome. -/
namespace Sys2Proof.Machine

/-- An accepted instruction: the one outcome its completion will write. -/
theorem exec_next_cases {i : Instr} {s t : State} (h : exec i s = .next t) :
    ∃ p, OutcomeOf i s p ∧ t = accept (encode i) p s
      ∧ (i.wf = true ∧ outcome i s = .ok p ∨ i.wf = false ∧ p = raiseError .illegal) := by
  rcases exec_cases i s with ⟨p, hp, he, hc⟩ | ⟨f, -, -, he⟩
  · rw [he] at h; cases h; exact ⟨p, hp, rfl, hc⟩
  · rw [he] at h; cases h

/-- After a list of register writes a register holds a value of the list, one written to it, or is not named and holds what it
held. -/
theorem get_writeRegs_cases (ws : List (Reg × Big)) (v : Vector Big 16) (r : Reg) :
    (∃ e ∈ ws, e.1 = r ∧ (writeRegs v ws).get r = e.2)
    ∨ r ∉ ws.map Prod.fst ∧ (writeRegs v ws).get r = v.get r := by
  induction ws generalizing v with
  | nil => exact .inr ⟨by simp, rfl⟩
  | cons w ws ih =>
    obtain ⟨q, x⟩ := w
    rcases ih (setV v q x) with ⟨e, he, hr, hv⟩ | ⟨hn, hv⟩
    · exact .inl ⟨e, List.mem_cons_of_mem _ he, hr, hv⟩
    · rw [get_setV] at hv
      by_cases hq : r = q
      · exact .inl ⟨(q, x), List.mem_cons_self, hq.symm, by rw [writeRegs, hv, if_pos hq]⟩
      · exact .inr ⟨by simpa [hq] using hn, by rw [writeRegs, hv, if_neg hq]⟩

/-- V after a completion without an error. -/
theorem readV_complete_of_ok {p : Pending} (h : p.err = .ok) (s : State) (r : Reg) :
    readV (complete p s) r = (writeRegs s.v p.vWrites).get r := by
  rw [complete_of_ok h]; rfl

/-- V after a completion with an error. -/
theorem readV_complete_of_err {p : Pending} (h : p.err ≠ .ok) (s : State) (r : Reg) :
    readV (complete p s) r = readV s r := by
  rw [complete_of_err h]; rfl

/-- A register the outcome does not name keeps its value. -/
theorem readV_complete_of_notMem {p : Pending} {r : Reg} (hr : r ∉ p.vWrites.map Prod.fst) (s : State) :
    readV (complete p s) r = readV s r := by
  by_cases he : p.err = .ok
  · rw [readV_complete_of_ok he, get_writeRegs_of_notMem _ _ _ hr]; rfl
  · exact readV_complete_of_err he s r

/-- A completion leaves the bytes past those of the outcome. -/
theorem read_complete_buf {p : Pending} {a : Nat} (h : p.buf.length ≤ a) (s : State) :
    Memory.read (complete p s).buf a = Memory.read s.buf a := by
  by_cases he : p.err = .ok
  · rw [complete_of_ok he]
    simp only [Memory.read_writeBytes]
    rw [if_neg (by omega)]
  · rw [complete_of_err he]

/-- A completion whose outcome has no length keeps CODEC_LEN. -/
theorem complete_codecLen_of_none {p : Pending} (h : p.codecLen = none) (s : State) :
    (complete p s).codecLen = s.codecLen := by
  unfold complete; split <;> simp [h]

/-- RES after a completion is 0 unless the outcome's result is 1 (60 R320, R327). -/
theorem complete_res_of_false {p : Pending} (h : p.res = false) (s : State) : (complete p s).status.res = false := by
  unfold complete; split <;> simp [h]

/-- RES is 1 after a completion only with ERR 0. -/
theorem complete_err_of_res {p : Pending} {s : State} (h : (complete p s).status.res = true) :
    (complete p s).status.err = .ok := by
  by_cases he : p.err = .ok
  · rw [complete_err, he]
  · rw [complete_of_err he] at h; cases h

/-- A turn of a BUSY engine sets DONE. -/
theorem engineStep_done_of_busy {s : State} (h : isBusy s = true) : (engineStep s).status.done = true := by
  unfold isBusy at h; unfold engineStep
  split <;> simp_all

/-- Settles O25: the accepted outcome names destinations only, has bytes for PENC alone and no more than the encoding's, and
completion applies nothing else. -/
theorem commandFrame : Obligations.CommandFrame := by
  unfold Obligations.CommandFrame
  intro i s t h
  obtain ⟨p, hp, rfl, -⟩ := exec_next_cases h
  have hbuf (a : Nat) (ha : p.buf.length ≤ a) :
      Memory.read (complete p (accept (encode i) p s)).buf a = Memory.read s.buf a := read_complete_buf ha _
  simp only [engineStep_accept, complete_prm, complete_bitsize, complete_klen, complete_doneIe, complete_busywr,
    complete_width, complete_base, complete_inputs, complete_rdata, complete_draws]
  refine ⟨fun r hr => readV_complete_of_notMem (fun hm => hr (hp.regs r hm)) _,
    rfl, rfl, rfl, rfl, rfl, rfl, rfl, rfl, rfl, rfl, fun hw => ?_, fun a ha => hbuf a (hp.encoding.trans ha),
    fun hr => complete_res_of_false (hp.res hr) _⟩
  obtain ⟨hb, hc⟩ := hp.buf hw
  exact ⟨fun a => hbuf a (by simp [hb]), complete_codecLen_of_none hc _⟩

end Sys2Proof.Machine
end

section
/-! PROOFS. What the computing commands write: a residue below P in every destination (40 R161, 41 R212). -/
namespace Sys2Proof.Machine

/-- The commands whose results are all computed modulo P: the others copy, encode or answer a Boolean. -/
def isComputing : Instr → Bool
  | .mred _ _ | .madd _ _ _ | .msub _ _ _ | .mmul _ _ _ | .minv _ _ | .paff _ _ | .pdblj _ _ | .padd _ _ _
  | .pdbl _ _ | .smul _ _ _ | .sbmul _ _ => true
  | _ => false

/-- An outcome that is an error, or that writes a residue to each of the registers `ds`, legal parameters given. -/
def WritesResidues (s : State) (ds : List Reg) (p : Pending) : Prop :=
  p.err = .ok → paramsOk s = true ∧ p.vWrites.map Prod.fst = ds ∧ ∀ e ∈ p.vWrites, e.2.toNat < modulus s

theorem one_lt_modulus {s : State} (h : paramsOk s = true) : 1 < modulus s := by
  obtain ⟨-, h3, -⟩ := (paramsOk_iff s).1 h
  exact Nat.lt_of_lt_of_le (by decide) h3

theorem modulus_pos {s : State} (h : paramsOk s = true) : 0 < modulus s := zero_lt_one.trans (one_lt_modulus h)

/-- A register holds a value below P as it is. -/
theorem toNat_toBig_of_lt_modulus {s : State} {x : Nat} (h : x < modulus s) : (toBig x).toNat = x :=
  toNat_toBig (h.trans (modulus_lt s))

theorem affineFromJacobian_lt {P : Nat} (hP : 0 < P) {j : Jac} {q : Affine} (h : affineFromJacobian P j = some q) :
    q.x < P ∧ q.y < P := by
  unfold affineFromJacobian at h
  split at h
  · cases h; exact ⟨hP, hP⟩
  · split at h
    · cases h
    · cases h; exact ⟨Nat.mod_lt _ hP, Nat.mod_lt _ hP⟩

/-- Every coordinate of a triple is below `n`. -/
def JacBelow (n : Nat) (j : Jac) : Prop := j.x < n ∧ j.y < n ∧ j.z < n

theorem doubleJacobian_below {P : Nat} (hP : 0 < P) (j : Jac) : JacBelow P (doubleJacobian P j) :=
  ⟨modP_lt hP _, modP_lt hP _, modP_lt hP _⟩

section
variable {s : State} {ds : List Reg}

theorem writesResidues_raiseError {e : Err} (he : e ≠ .ok) : WritesResidues s ds (raiseError e) :=
  fun h => absurd h he

theorem writesResidues_withParams {k : Nat → Pending}
    (h : paramsOk s = true → WritesResidues s ds (k (modulus s))) : WritesResidues s ds (withParams s k) := by
  unfold withParams; split
  · exact h ‹_›
  · exact writesResidues_raiseError (by decide)

theorem writesResidues_withScalarLen {k : Nat → Pending} (h : ∀ n, WritesResidues s ds (k n)) :
    WritesResidues s ds (withScalarLen s k) := by
  unfold withScalarLen; split
  · exact h _
  · exact writesResidues_raiseError (by decide)

theorem writesResidues_orNotInvertible {α : Type} {r : Option α} {k : α → Pending}
    (h : ∀ x, r = some x → WritesResidues s ds (k x)) : WritesResidues s ds (orNotInvertible r k) := by
  unfold orNotInvertible; split
  · exact writesResidues_raiseError (by decide)
  · exact h _ rfl

theorem writesResidues_toSingle (hs : paramsOk s = true) (d : Reg) {x : Nat} (hx : x < modulus s) :
    WritesResidues s [d] (writesV (toSingle d x)) :=
  fun _ => ⟨hs, rfl, by simpa [writesV, toSingle, toNat_toBig_of_lt_modulus hx] using hx⟩

theorem writesResidues_toPair (hs : paramsOk s = true) (d : Reg) {q : Affine} (h : q.x < modulus s ∧ q.y < modulus s) :
    WritesResidues s [d, regPlus d 1] (writesV (toPair d q)) := by
  obtain ⟨hx, hy⟩ := h
  exact fun _ => ⟨hs, rfl, by
    simp [writesV, toPair, toNat_toBig_of_lt_modulus hx, toNat_toBig_of_lt_modulus hy, hx, hy]⟩

theorem writesResidues_toTriple (hs : paramsOk s = true) (d : Reg) {q : Jac}
    (h : JacBelow (modulus s) q) :
    WritesResidues s [d, regPlus d 1, regPlus d 2] (writesV (toTriple d q)) := by
  obtain ⟨hx, hy, hz⟩ := h
  exact fun _ => ⟨hs, rfl, by
    simp [writesV, toTriple, toNat_toBig_of_lt_modulus hx, toNat_toBig_of_lt_modulus hy,
      toNat_toBig_of_lt_modulus hz, hx, hy, hz]⟩

/-- A command whose result is one residue computed without an inverse. -/
theorem writesResidues_modP (d : Reg) (f : Nat → Int) :
    WritesResidues s [d] (withParams s fun P => writesV (toSingle d (modP P (f P)))) :=
  writesResidues_withParams fun hs => writesResidues_toSingle hs d (modP_lt (modulus_pos hs) _)

/-- A command whose result is a Jacobian triple brought to affine form. -/
theorem writesResidues_affine (hs : paramsOk s = true) (d : Reg) (j : Jac) :
    WritesResidues s [d, regPlus d 1]
      (orNotInvertible (affineFromJacobian (modulus s) j) fun q => writesV (toPair d q)) :=
  writesResidues_orNotInvertible fun _ hq =>
    writesResidues_toPair hs d (affineFromJacobian_lt (modulus_pos hs) hq)

end

/-- The outcome of a computing command writes a residue to each destination, or is an error. -/
theorem writesResidues_outcome {i : Instr} {s : State} {p : Pending} (hi : isComputing i = true)
    (h : outcome i s = .ok p) : WritesResidues s (destRegs i) p := by
  cases i with
  | mred d a => cases h; exact writesResidues_modP d _
  | madd d a b => cases h; exact writesResidues_modP d _
  | msub d a b => cases h; exact writesResidues_modP d _
  | mmul d a b => cases h; exact writesResidues_modP d _
  | minv d a =>
    cases h
    refine writesResidues_withParams fun hs => writesResidues_orNotInvertible fun y hy => ?_
    obtain ⟨hlt, -⟩ := inverse_eq_some (one_lt_modulus hs) hy
    exact writesResidues_toSingle hs d hlt
  | pdblj d a =>
    cases h
    exact writesResidues_withParams fun hs =>
      writesResidues_toTriple hs d (doubleJacobian_below (modulus_pos hs) _)
  | paff d a => cases h; exact writesResidues_withParams fun hs => writesResidues_affine hs d _
  | padd d a b => cases h; exact writesResidues_withParams fun hs => writesResidues_affine hs d _
  | pdbl d a => cases h; exact writesResidues_withParams fun hs => writesResidues_affine hs d _
  | smul d a b =>
    cases h
    exact writesResidues_withParams fun hs => writesResidues_withScalarLen fun _ => writesResidues_affine hs d _
  | sbmul d a =>
    cases h
    exact writesResidues_withParams fun hs => writesResidues_withScalarLen fun _ => writesResidues_affine hs d _
  | nop | mov | pchk | pjac | paddj | penc | pdec => cases hi

/-- Settles O27: the completed outcome writes a residue to each destination, so whichever write a register keeps is one. -/
theorem resultsAreReduced : Obligations.ResultsAreReduced := by
  unfold Obligations.ResultsAreReduced
  intro i s t hw h herr hc r hr
  have hi : isComputing i = true := by
    cases i with
    | mred | madd | msub | mmul | minv | paff | pdblj | padd | pdbl | smul | sbmul => rfl
    | nop | mov | pchk | pjac | paddj | penc | pdec => exact hc.elim
  obtain ⟨p, -, rfl, ⟨-, hp⟩ | ⟨hw', -⟩⟩ := exec_next_cases h
  · rw [engineStep_accept] at herr ⊢
    rw [complete_err] at herr
    obtain ⟨-, hregs, hlt⟩ := writesResidues_outcome hi hp herr
    rw [readV_complete_of_ok herr]
    rcases get_writeRegs_cases p.vWrites (accept (encode i) p s).v r with ⟨e, he, -, hv⟩ | ⟨hn, -⟩
    · rw [hv]; exact hlt e he
    · exact absurd (hregs ▸ hr) hn
  · rw [hw] at hw'; cases hw'

end Sys2Proof.Machine
end

section
/-! PROOFS. The machine's invariant, operation by operation: what each part of a step does to it (10 R30, R33, R41, 60 R320). -/
namespace Sys2Proof.Machine

/-! ### Values that fit in W bits -/

theorem fits_zero (w : Width) : Fits w 0#1024 := by
  rw [Fits, BitVec.toNat_zero]; exact Nat.two_pow_pos _

theorem fits_toBig {w : Width} {x : Nat} (h : x < 2 ^ Config.wBits w) : Fits w (toBig x) :=
  lt_of_le_of_lt (by rw [toBig, BitVec.toNat_ofNat]; exact Nat.mod_le _ _) h

/-- A value fits exactly when its bits from W on are 0. -/
theorem fits_iff_getLsbD (w : Width) (x : Big) : Fits w x ↔ ∀ n, Config.wBits w ≤ n → x.getLsbD n = false :=
  ⟨fun h _ hn => Nat.testBit_lt_two_pow (h.trans_le (Nat.pow_le_pow_right (by decide) hn)),
    fun h => Nat.lt_pow_two_of_testBit _ h⟩

/-- A write of one of the NW words keeps a register within W bits. -/
theorem fits_setBigWord {w : Width} {x : Big} (hx : Fits w x) {j : Nat} (hj : j < Config.bigWords w) (y : Word) :
    Fits w (setBigWord x j y) := by
  rw [fits_iff_getLsbD] at hx ⊢
  intro n hn
  have hj' : j < 32 := hj.trans_le (bigWords_le w)
  have hout : ¬(32 * j ≤ n ∧ n < 32 * j + 32) := by simp only [Config.wBits] at hn; omega
  rw [getLsbD_setBigWord x j hj', if_neg hout]
  exact hx n hn

theorem fits_modulus {s : State} (h : paramsOk s = true) : modulus s < 2 ^ Config.wBits s.width := by
  obtain ⟨-, -, -, hb, hp⟩ := (paramsOk_iff s).1 h
  exact hp.trans_le (Nat.pow_le_pow_right (by decide) hb)

/-- A coordinate of an encoding fits (43 R290). -/
theorem pow_byteLen_le {s : State} (h : paramsOk s = true) : 256 ^ byteLen s ≤ 2 ^ Config.wBits s.width := by
  obtain ⟨-, hb, -⟩ := byteLen_bounds h
  rw [show 256 = 2 ^ 8 from rfl, ← pow_mul]
  exact Nat.pow_le_pow_right (by decide) (by omega)

theorem natOfBE_lt_of_length_le {s : State} (h : paramsOk s = true) {bs : List Byte} (hl : bs.length ≤ byteLen s) :
    natOfBE bs < 2 ^ Config.wBits s.width :=
  (natOfBE_lt bs).trans_le ((Nat.pow_le_pow_right (by decide) hl).trans (pow_byteLen_le h))

/-! ### The register writes of an outcome -/

/-- A sum of triples stays below a bound that the operands and P obey: the early returns copy an operand (41 R204). -/
theorem addJacobian_below {P n : Nat} (hP : 0 < P) (hn : P ≤ n) {j k : Jac} (hj : JacBelow n j) (hk : JacBelow n k) :
    JacBelow n (addJacobian P j k) := by
  have hmod (x : Int) : modP P x < n := (modP_lt hP x).trans_le hn
  simp only [addJacobian]
  split
  · exact hk
  split
  · exact hj
  split
  · obtain ⟨hx, hy, hz⟩ := doubleJacobian_below hP j
    exact ⟨hx.trans_le hn, hy.trans_le hn, hz.trans_le hn⟩
  · exact ⟨hmod _, hmod _, hmod _⟩

theorem jacOfAffine_below {n : Nat} (hn : 1 < n) {q : Affine} (hx : q.x < n) (hy : q.y < n) :
    JacBelow n (jacOfAffine q) := by
  refine ⟨hx, hy, ?_⟩
  simp only [jacOfAffine, zForAffine]
  split <;> omega

/-- The register writes of an outcome fit in W bits. -/
def WritesFit (w : Width) (p : Pending) : Prop := ∀ e ∈ p.vWrites, Fits w e.2

theorem writesFit_of_nil {w : Width} {p : Pending} (h : p.vWrites = []) : WritesFit w p := by
  simp [WritesFit, h]

theorem writesFit_withParams {s : State} {k : Nat → Pending}
    (h : paramsOk s = true → WritesFit s.width (k (modulus s))) : WritesFit s.width (withParams s k) := by
  unfold withParams; split
  · exact h ‹_›
  · exact writesFit_of_nil rfl

theorem writesFit_toTriple {w : Width} (d : Reg) {q : Jac} (h : JacBelow (2 ^ Config.wBits w) q) :
    WritesFit w (writesV (toTriple d q)) := by
  obtain ⟨hx, hy, hz⟩ := h
  simp [WritesFit, writesV, toTriple, fits_toBig hx, fits_toBig hy, fits_toBig hz]

theorem writesFit_pdecOutcome {d : Reg} {s : State} {p : Pending} (hs : paramsOk s = true)
    (h : pdecOutcome d s = .ok p) : WritesFit s.width p := by
  rcases pdecOutcome_cases h with rfl | ⟨bs, -, -, hbs, rfl⟩
  · exact writesFit_of_nil rfl
  · obtain ⟨hl, -⟩ := Memory.readBytes_ok hbs
    have hx : natOfBE (bs.take (byteLen s)) < 2 ^ Config.wBits s.width :=
      natOfBE_lt_of_length_le hs (by simp)
    have hy : natOfBE (bs.drop (byteLen s)) < 2 ^ Config.wBits s.width :=
      natOfBE_lt_of_length_le hs (by rw [List.length_drop]; omega)
    simp [WritesFit, toPair, fits_toBig hx, fits_toBig hy]

/-- With V within W bits, every register write of an instruction's outcome is: a residue, a copy, or a decoded coordinate
(10 R33). -/
theorem writesFit_outcome {i : Instr} {s : State} {p : Pending} (hv : ∀ r : Reg, Fits s.width (readV s r))
    (h : outcome i s = .ok p) : WritesFit s.width p := by
  have hp := outcomeOf_outcome h
  have hnil (hd : destRegs i = []) : WritesFit s.width p := writesFit_of_nil <| by
    simpa [hd, List.eq_nil_iff_forall_not_mem] using hp.regs
  cases hi : isComputing i with
  | true =>
    by_cases he : p.err = .ok
    · obtain ⟨hs, -, hlt⟩ := writesResidues_outcome hi h he
      exact fun e he => (hlt e he).trans (fits_modulus hs)
    · exact writesFit_of_nil (congrArg Pending.vWrites (hp.err he))
  | false =>
    cases i with
    | nop | pchk | penc => exact hnil rfl
    | mov d a => cases h; simpa [WritesFit, writesV] using hv a
    | pjac d a =>
      cases h
      exact writesFit_withParams fun hs => writesFit_toTriple d <|
        jacOfAffine_below ((one_lt_modulus hs).trans (fits_modulus hs)) (hv _) (hv _)
    | paddj d a b =>
      cases h
      exact writesFit_withParams fun hs => writesFit_toTriple d <|
        addJacobian_below (modulus_pos hs) (fits_modulus hs).le ⟨hv _, hv _, hv _⟩ ⟨hv _, hv _, hv _⟩
    | pdec d =>
      simp only [outcome] at h
      split at h
      · exact writesFit_pdecOutcome ‹_› h
      · cases h; exact writesFit_of_nil rfl
    | mred | madd | msub | mmul | minv | paff | pdblj | padd | pdbl | smul | sbmul => cases hi

/-! ### The invariant, operation by operation -/

section
variable {s : State} (h : Inv s)
include h

theorem inv_accept (c : Word) {p : Pending} (hp : PendingWf s.width p) (hf : WritesFit s.width p) :
    Inv (accept c p s) := by
  obtain ⟨hbuf, -, -, -, hbase, hv, hprm⟩ := h
  exact ⟨hbuf, fun _ => ⟨rfl, rfl, rfl⟩, fun q hq => by cases hq; exact ⟨hp, hf⟩, fun _ => rfl, hbase, hv, hprm⟩

/-- Acceptance of an instruction. -/
theorem inv_exec {i : Instr} {t : State} (he : exec i s = .next t) : Inv t := by
  obtain ⟨p, hp, rfl, hc⟩ := exec_next_cases he
  refine inv_accept h _ ⟨hp.err, hp.inBuf⟩ ?_
  obtain ⟨-, -, -, -, -, hv, -⟩ := h
  rcases hc with ⟨-, ho⟩ | ⟨-, rfl⟩
  · exact writesFit_outcome hv ho
  · exact writesFit_of_nil rfl

/-- Acceptance of a word, legal or not. -/
theorem inv_acceptWord {w : Word} {t : State} (he : acceptWord w s = .next t) : Inv t := by
  unfold acceptWord at he
  split at he
  · exact inv_exec h he
  · cases he
    exact inv_accept h _ ⟨fun _ => rfl, Nat.zero_le _⟩ (writesFit_of_nil rfl)

theorem inv_complete {p : Pending} (hp : s.engine = .busy p) : Inv (complete p s) := by
  obtain ⟨hbuf, -, hpend, -, hbase, hv, hprm⟩ := h
  obtain ⟨⟨-, hlen⟩, hfit⟩ := hpend p hp
  have hidle : isBusy (complete p s) = false := by simp [isBusy]
  refine ⟨?_, fun hb => ?_, fun q hq => ?_, complete_err_of_res, by simpa using hbase, fun r => ?_, by simpa using hprm⟩
  · rw [complete_width]
    by_cases he : p.err = .ok
    · rw [complete_of_ok he]; exact Memory.wf_writeBytes hbuf 0 _ (by simpa using hlen)
    · rw [complete_of_err he]; exact hbuf
  · rw [hidle] at hb; cases hb
  · rw [complete_engine] at hq; cases hq
  · rw [complete_width]
    by_cases he : p.err = .ok
    · rw [readV_complete_of_ok he]
      rcases get_writeRegs_cases p.vWrites s.v r with ⟨e, hm, -, hr⟩ | ⟨-, hr⟩ <;> rw [hr]
      · exact hfit e hm
      · exact hv r
    · rw [readV_complete_of_err he]; exact hv r

theorem inv_engineStep : Inv (engineStep s) := by
  unfold engineStep; split
  · exact h
  · exact inv_complete h ‹_›

theorem inv_clearStatus (x : Word) : Inv (clearStatus x s) := by
  obtain ⟨hbuf, hbusy, hrest⟩ := h
  refine ⟨hbuf, fun hb => ?_, hrest⟩
  obtain ⟨hdone, hres, herr⟩ := hbusy hb
  exact ⟨by simp [hdone], hres, herr⟩

theorem inv_softReset : Inv (softReset s) := by
  obtain ⟨hbuf, -, -, -, hbase, hv, hprm⟩ := h
  exact ⟨hbuf, fun _ => ⟨rfl, rfl, rfl⟩, fun _ hq => (nomatch hq), fun _ => rfl, hbase, hv, hprm⟩

theorem inv_powerOnReset : Inv (powerOnReset s) := by
  obtain ⟨-, -, -, -, hbase, -, -⟩ := h
  refine ⟨⟨List.Pairwise.nil, fun _ hc => nomatch hc⟩, fun _ => ⟨rfl, rfl, rfl⟩, fun _ hq => (nomatch hq), fun _ => rfl,
    hbase, fun r => ?_, fun r => ?_⟩
  · rw [show readV (powerOnReset s) r = 0#1024 by
      simp [readV, State.reset, State.resetAt, Vector.get_eq_getElem]]
    exact fits_zero _
  · cases r <;> exact fits_zero _

theorem inv_setV (r : Reg) {x : Big} (hx : Fits s.width x) : Inv { s with v := setV s.v r x } := by
  obtain ⟨hbuf, hbusy, hpend, hres, hbase, hv, hprm⟩ := h
  refine ⟨hbuf, hbusy, hpend, hres, hbase, fun q => ?_, hprm⟩
  simp only [readV, get_setV]
  split
  · exact hx
  · exact hv q

theorem inv_setPrm (r : PrmReg) {x : Big} (hx : Fits s.width x) : Inv { s with prm := setPrm s.prm r x } := by
  obtain ⟨hbuf, hbusy, hpend, hres, hbase, hv, hprm⟩ := h
  refine ⟨hbuf, hbusy, hpend, hres, hbase, hv, fun q => ?_⟩
  simp only [readPrm_setPrm]
  split
  · exact hx
  · exact hprm q

theorem inv_writeBufWord {j : Nat} (hj : j < Config.bufWords s.width) (x : Word) :
    Inv { s with buf := writeBufWord s.buf j x } := by
  obtain ⟨hbuf, hrest⟩ := h
  refine ⟨Memory.wf_writeBytes hbuf _ _ ?_, hrest⟩
  simp only [Config.bufWords] at hj
  simp only [List.length_cons, List.length_nil]
  omega

theorem inv_whenIdle {s' : State} (h' : Inv s') : Inv (whenIdle s s') := by
  unfold whenIdle; split
  · exact h
  · exact h'

/-- A host write to the target an offset reaches. -/
theorem inv_writeEffect {off : Nat} {x : Word} {t : State} (he : writeEffect (target s.width off) x s = .next t) :
    Inv t := by
  obtain ⟨hvj, hprmj, hbufj⟩ := target_bounds s.width off
  have ⟨_, _, _, _, _, hv, hprm⟩ := h
  cases htg : target s.width off with
  | cmd =>
    simp only [htg, writeEffect] at he
    split at he
    · cases he; exact h
    · exact inv_acceptWord h he
  | status => rw [htg] at he; cases he; exact inv_clearStatus h x
  | ctrl =>
    rw [htg] at he; cases he
    split
    · exact inv_softReset h
    · exact h
  | id | cfg | reserved | irqen => rw [htg] at he; cases he; exact h
  | bitsize | klen | codecLen => rw [htg] at he; cases he; exact inv_whenIdle h h
  | v r j =>
    rw [htg] at he; cases he
    exact inv_whenIdle h (inv_setV h r (fits_setBigWord (hv r) (hvj r j htg) x))
  | prm r j =>
    rw [htg] at he; cases he
    exact inv_whenIdle h (inv_setPrm h r (fits_setBigWord (hprm r) (hprmj r j htg) x))
  | buf j => rw [htg] at he; cases he; exact inv_whenIdle h (inv_writeBufWord h (hbufj j htg) x)

/-- Every event of the bus. -/
theorem inv_busEvent {e : BusEvent} {t : State} (he : busEvent e s = .next t) : Inv t := by
  cases e with
  | engineTurn => cases he; exact inv_engineStep h
  | powerOn => cases he; exact inv_powerOnReset h
  | read address size =>
    simp only [busEvent] at he
    split at he
    · cases he; exact h
    split at he <;> cases he
    exact h
  | write address size x =>
    simp only [busEvent] at he
    split at he
    · cases he; exact h
    split at he
    · cases he
    · exact inv_writeEffect h he

end

/-- Settles O57: a step is one bus event or a turn of the engine, and each keeps the invariant; taking the event off the
schedule touches nothing the invariant speaks of. -/
theorem stepKeepsInv : Obligations.StepKeepsInv := by
  unfold Obligations.StepKeepsInv
  intro s t h ht
  cases hin : s.inputs with
  | nil => rw [step_nil hin] at ht; cases ht; exact inv_engineStep h
  | cons e rest =>
    rw [step_cons hin] at ht
    exact inv_busEvent (show Inv { s with inputs := rest } from h) ht

end Sys2Proof.Machine
end

section
/-! PROOFS. The bits of STATUS and the control registers (10 R41 to R46). -/
namespace Sys2Proof.Machine

/-- Words side by side as a number: the high one is shifted over the low one. -/
theorem toNat_append_eq_add {m n : Nat} (x : BitVec m) (y : BitVec n) :
    (x ++ y).toNat = x.toNat * 2 ^ n + y.toNat := by
  rw [BitVec.toNat_append, ← Nat.shiftLeft_add_eq_or_of_lt y.isLt, Nat.shiftLeft_eq]

/-- Settles O17: STATUS is its fields side by side, so it is their sum, each shifted to its place. -/
theorem statusWordFields : Obligations.StatusWordFields := by
  unfold Obligations.StatusWordFields
  intro s
  simp only [readTarget, statusWord, toNat_append_eq_add, BitVec.toNat_ofBool, BitVec.toNat_ofNat]
  cases s.status.err <;> simp only [errCode, BitVec.toNat_ofNat] <;> omega

/-- Settles O18: the two W1C bits clear their flags, and a completion sets DONE whatever it was. -/
theorem statusWriteClears : Obligations.StatusWriteClears := by
  unfold Obligations.StatusWriteClears
  intro s x
  have hw1c (flag bit : Bool) : (flag && !bit) = if bit then false else flag := by cases bit <;> simp
  exact ⟨clearStatus x s, rfl, by simp only [clearStatus, hw1c], fun hb => engineStep_done_of_busy hb⟩

theorem whenIdle_of_idle {s : State} (h : isBusy s = false) (s' : State) : whenIdle s s' = s' := by
  simp [whenIdle, h]

/-- Settles O21: while IDLE the write stores the field's low bits, and the read widens them with zeros. -/
theorem csrReadback : Obligations.CsrReadback := by
  unfold Obligations.CsrReadback
  intro s x hidle
  simp only [writeEffect, readTarget, whenIdle_of_idle hidle]
  refine ⟨⟨_, rfl, ?_⟩, ⟨_, rfl, ?_⟩, ⟨_, rfl, ?_⟩, ⟨_, rfl, ?_⟩⟩
  · have hbit : x.getLsbD 0 = decide (x.toNat % 2 = 1) := Nat.testBit_zero _
    rw [BitVec.toNat_setWidth, BitVec.toNat_ofBool, hbit]
    rcases Nat.mod_two_eq_zero_or_one x.toNat with h | h <;> simp [h]
  all_goals simp; omega

end Sys2Proof.Machine
end

section
/-! PROOFS. PDEC's reads of BUF (10 R48). -/
namespace Sys2Proof.Machine

/-- A run of reads stops at the first of its addresses that holds no value. -/
theorem Memory.readBytes_eq_error {m : Memory} {a n e : Nat} (ha : a ≤ e) (he : e < a + n)
    (hnone : Memory.read m e = none) (hfirst : ∀ j, a ≤ j → j < e → Memory.read m j ≠ none) :
    Memory.readBytes m a n = .error e := by
  induction n generalizing a with
  | zero => omega
  | succ n ih =>
    rcases Nat.eq_or_lt_of_le ha with rfl | hlt
    · simp [Memory.readBytes, hnone]
    · obtain ⟨b, hb⟩ := Option.ne_none_iff_exists'.1 (hfirst a le_rfl hlt)
      have hrest := ih hlt (by omega) fun j hj => hfirst j (by omega)
      simp [Memory.readBytes, hb, hrest]

/-- A legal PDEC whose checks pass stops with the fault its reads meet. -/
theorem exec_pdec_of_error {d : Reg} {s : State} {f : Fault} (hd : d.val ≤ 14) (hs : paramsOk s = true)
    (h : pdecOutcome d s = .error f) : exec (.pdec d) s = .fault f := by
  have hwf : (Instr.pdec d).wf = true := decide_eq_true hd
  simp [exec_eq_issueOrFault, outcome, issueOrFault, hwf, hs, h]

/-- Settles O55: past the length test PDEC reads byte 0, and past the tag test the run of bytes from 1 on. -/
theorem pdecStopsOnUnwrittenByte : Obligations.PdecStopsOnUnwrittenByte := by
  unfold Obligations.PdecStopsOnUnwrittenByte
  intro d s _ hd hs hlen
  refine ⟨fun h0 => exec_pdec_of_error hd hs ?_, fun h4 m h1 hm hnone hfirst => exec_pdec_of_error hd hs ?_⟩
  · simp [pdecOutcome, hlen, h0]
  · have hrun : Memory.readBytes s.buf 1 (2 * byteLen s) = .error m :=
      Memory.readBytes_eq_error h1 (by omega) hnone hfirst
    simp [pdecOutcome, hlen, h4, hrun]

end Sys2Proof.Machine
end

section
/-! PROOFS. The address map, row by row (20 R82): what `target` answers in each range of offsets. -/
namespace Sys2Proof.Machine

theorem target_of_lt_0x100 (w : Width) {off : Nat} (h : off < 0x100) : target w off = csrTarget (off / 4) := by
  unfold target
  rw [Nat.mod_eq_of_lt (by omega)]
  exact if_pos (by omega)

/-- Past the nine control and status registers the first 0x100 bytes are reserved. -/
theorem csrTarget_of_ge {n : Nat} (h : 9 ≤ n) : csrTarget n = .reserved := by
  obtain ⟨m, rfl⟩ := Nat.exists_eq_add_of_le' h
  rfl

/-- The slots of the parameter registers from 0x100 on, one every 0x80 bytes. -/
theorem exists_prmOffset_eq (r : PrmReg) : ∃ i, prmOffset r = 0x100 + 0x80 * i ∧ i < 5 ∧ prmSlot i = some r := by
  cases r
  · exact ⟨0, rfl, by decide, rfl⟩
  · exact ⟨1, rfl, by decide, rfl⟩
  · exact ⟨2, rfl, by decide, rfl⟩
  · exact ⟨3, rfl, by decide, rfl⟩
  · exact ⟨4, rfl, by decide, rfl⟩

theorem prmSlot_of_ge {i : Nat} (h : 5 ≤ i) : prmSlot i = none := by
  obtain ⟨m, rfl⟩ := Nat.exists_eq_add_of_le' h
  rfl

theorem target_prmOffset_add (w : Width) (r : PrmReg) {n : Nat} (hn : n < 0x80) :
    target w (prmOffset r + n) = if n / 4 < Config.bigWords w then .prm r (n / 4) else .reserved := by
  obtain ⟨i, hoff, hi, hprm⟩ := exists_prmOffset_eq r
  have hslot : ((0x100 + 0x80 * i + n) % 0x4000 / 4 - 0x100 / 4) / 32 = i := by omega
  have hword : ((0x100 + 0x80 * i + n) % 0x4000 / 4 - 0x100 / 4) % 32 = n / 4 := by omega
  simp only [target, hoff, hslot, hword, hprm]
  rw [if_neg (by omega), if_pos (by omega)]

theorem target_vOffset_add (w : Width) (r : Reg) {n : Nat} (hn : n < 0x80) :
    target w (vOffset r + n) = if n / 4 < Config.bigWords w then .v r (n / 4) else .reserved := by
  have hr := r.isLt
  have hoff : vOffset r = 0x1000 + 0x80 * r.val := rfl
  have hslot : ((0x1000 + 0x80 * r.val + n) % 0x4000 / 4 - 0x1000 / 4) / 32 = r := by omega
  have hword : ((0x1000 + 0x80 * r.val + n) % 0x4000 / 4 - 0x1000 / 4) % 32 = n / 4 := by omega
  have hreg : regPlus 0 r = r := Fin.ext (by simp [regPlus, Nat.mod_eq_of_lt hr])
  simp only [target, hoff, hslot, hword, hreg]
  rw [if_neg (by omega), if_neg (by omega), if_pos (by omega)]

theorem target_of_bufRange (w : Width) {n : Nat} (hn : n < 0x2000) :
    target w (0x2000 + n) = if n / 4 < Config.bufWords w then .buf (n / 4) else .reserved := by
  have hword : (0x2000 + n) % 0x4000 / 4 - 0x2000 / 4 = n / 4 := by omega
  simp only [target, hword]
  rw [if_neg (by omega), if_neg (by omega), if_neg (by omega), if_neg (by omega)]

/-- The gap after the last parameter register: slots that hold none. -/
theorem target_of_gap_0x380 (w : Width) {off : Nat} (h1 : 0x380 ≤ off) (h2 : off < 0x1000) :
    target w off = .reserved := by
  have hslot : prmSlot ((off / 4 - 0x100 / 4) / 32) = none := prmSlot_of_ge (by omega)
  simp only [target, Nat.mod_eq_of_lt (show off < 0x4000 by omega), hslot]
  rw [if_neg (by omega), if_pos (by omega)]

/-- The gap between V and BUF. -/
theorem target_of_gap_0x1800 (w : Width) {off : Nat} (h1 : 0x1800 ≤ off) (h2 : off < 0x2000) :
    target w off = .reserved := by
  simp only [target, Nat.mod_eq_of_lt (show off < 0x4000 by omega)]
  rw [if_neg (by omega), if_neg (by omega), if_neg (by omega), if_pos (by omega)]

theorem bufBytes_eq (w : Width) : Config.bufBytes w = 4 * Config.bufWords w := by
  simp only [Config.bufWords, Config.bufBytes]; omega

/-- BUF fits in the 0x2000 bytes the map has for it. -/
theorem bufWords_lt (w : Width) : Config.bufWords w < 0x800 := by
  have := wBits_le w
  simp only [Config.bufWords, Config.bufBytes]; omega

/-- Settles O7: the rows of the map are the ranges above, and byte k of word j lies at 4j + k. -/
theorem addressMap : Obligations.AddressMap := by
  unfold Obligations.AddressMap
  intro w
  have hNW := bigWords_le w
  have hBW := bufWords_lt w
  have hword {j k : Nat} (hk : k < 4) : (4 * j + k) / 4 = j := by omega
  refine ⟨fun k hk => ?_, fun off h1 h2 => ?_, fun r j k hj hk => ?_, fun r n h1 h2 => ?_,
    fun off h1 h2 => target_of_gap_0x380 w h1 h2, fun r j k hj hk => ?_, fun r n h1 h2 => ?_,
    fun off h1 h2 => target_of_gap_0x1800 w h1 h2, fun j k hj hk => ?_, fun off h1 h2 => ?_⟩
  · have hcsr (n : Nat) (hn : n < 9) : target w (4 * n + k) = csrTarget n := by
      rw [target_of_lt_0x100 w (by omega)]; congr 1; omega
    have h0 : target w k = csrTarget 0 := by simpa using hcsr 0 (by decide)
    exact ⟨h0, hcsr 1 (by decide), hcsr 2 (by decide), hcsr 3 (by decide), hcsr 4 (by decide), hcsr 5 (by decide),
      hcsr 6 (by decide), hcsr 7 (by decide), hcsr 8 (by decide)⟩
  · rw [target_of_lt_0x100 w h2, csrTarget_of_ge (by omega)]
  · rw [Nat.add_assoc, target_prmOffset_add w r (by omega), hword hk, if_pos hj]
  · rw [target_prmOffset_add w r h2, if_neg (by omega)]
  · rw [Nat.add_assoc, target_vOffset_add w r (by omega), hword hk, if_pos hj]
  · rw [target_vOffset_add w r h2, if_neg (by omega)]
  · rw [Nat.add_assoc, target_of_bufRange w (by omega), hword hk, if_pos hj]
  · have hbytes := bufBytes_eq w
    obtain ⟨n, rfl⟩ := Nat.exists_eq_add_of_le (show 0x2000 ≤ off by omega)
    rw [target_of_bufRange w (by omega), if_neg (by omega)]

end Sys2Proof.Machine
end

section
/-! PROOFS. Words of the big registers and of BUF as the host writes and reads them (20 R83 to R86). -/
namespace Sys2Proof.Machine

/-- Settles O10: the new value is `setBigWord` of the old one, whose bits the model's laws give. -/
theorem bigWordAccess : Obligations.BigWordAccess := by
  unfold Obligations.BigWordAccess
  intro s x j hidle hj
  have hj32 : j < 32 := hj.trans_le (bigWords_le s.width)
  refine ⟨fun r => ⟨setBigWord (readV s r) j x, ?_, getLsbD_setBigWord _ j hj32 x, fun n hn => ?_⟩,
    fun r => ⟨setBigWord (readPrm s.prm r) j x, ?_, getLsbD_setBigWord _ j hj32 x, fun n hn => ?_⟩⟩
  · simp only [writeEffect, whenIdle_of_idle hidle]
  · rw [← getLsbD_bigWord _ j n hn]; simp only [readTarget, hidle, Bool.false_eq_true, if_false]
  · simp only [writeEffect, whenIdle_of_idle hidle]
  · rw [← getLsbD_bigWord _ j n hn]; simp only [readTarget, hidle, Bool.false_eq_true, if_false]

/-- After the writes of words of `new` a bit is the new one where its word was among them, and the old one elsewhere. -/
theorem getLsbD_foldl_setBigWord (new : Big) (order : List Nat) (horder : ∀ j ∈ order, j < 32) (old : Big) (n : Nat) :
    (order.foldl (fun y j => setBigWord y j (bigWord new j)) old).getLsbD n =
      if n / 32 ∈ order then new.getLsbD n else old.getLsbD n := by
  induction order generalizing old with
  | nil => rfl
  | cons j js ih =>
    rw [List.foldl_cons, ih fun i hi => horder i (List.mem_cons_of_mem j hi),
      getLsbD_setBigWord old j (horder j List.mem_cons_self)]
    by_cases hjs : n / 32 ∈ js
    · rw [if_pos hjs, if_pos (List.mem_cons_of_mem j hjs)]
    · rw [if_neg hjs]
      by_cases hn : n / 32 = j
      · rw [if_pos (by omega), if_pos (by simp [hn]), getLsbD_bigWord _ _ _ (by omega)]
        congr 1; omega
      · rw [if_neg (by omega), if_neg (by simp [hn, hjs])]

/-- Settles O11: a permutation of the NW word numbers names the word of every bit below W, and from W on both values are 0. -/
theorem allWordsInAnyOrder : Obligations.AllWordsInAnyOrder := by
  unfold Obligations.AllWordsInAnyOrder
  intro w old new order hold hnew hperm
  have hmem (j : Nat) : j ∈ order ↔ j < Config.bigWords w := by rw [hperm.mem_iff, List.mem_range]
  have horder : ∀ j ∈ order, j < 32 := fun j hj => ((hmem j).1 hj).trans_le (bigWords_le w)
  refine BitVec.eq_of_getLsbD_eq fun n _ => ?_
  rw [getLsbD_foldl_setBigWord new order horder]
  split
  · rfl
  · next hn =>
    have hW : Config.wBits w ≤ n := by rw [hmem] at hn; simp only [Config.wBits]; omega
    rw [(fits_iff_getLsbD w old).1 hold n hW, (fits_iff_getLsbD w new).1 hnew n hW]

/-- A byte of BUF after a write of word j: the word's lane inside the word, the old byte outside. -/
theorem Memory.read_writeBufWord (m : Memory) (j : Nat) (x : Word) (a : Nat) :
    Memory.read (writeBufWord m j x) a =
      if 4 * j ≤ a ∧ a < 4 * j + 4 then some (byteLane x (a - 4 * j)) else Memory.read m a := by
  rw [writeBufWord, Memory.read_writeBytes]
  simp only [List.length_cons, List.length_nil, Nat.zero_add, Nat.reduceAdd]
  split
  · next h =>
    obtain ⟨k, hk, rfl⟩ : ∃ k < 4, a = 4 * j + k := ⟨a - 4 * j, by omega, by omega⟩
    rw [Nat.add_sub_cancel_left]
    interval_cases k <;> rfl
  · rfl

/-- The lanes of a word put together from four bytes are those bytes. -/
theorem byteLane_wordOfLanes (b : Nat → Byte) {k : Nat} (hk : k < 4) :
    byteLane (wordOfLanes (b 0) (b 1) (b 2) (b 3)) k = b k := by
  have h0 := (b 0).isLt
  have h1 := (b 1).isLt
  have h2 := (b 2).isLt
  have h3 := (b 3).isLt
  apply BitVec.eq_of_toNat_eq
  simp only [byteLane, wordOfLanes, BitVec.extractLsb'_toNat, toNat_append_eq_add, Nat.shiftRight_eq_div_pow]
  interval_cases k <;> omega

/-- Settles O12: the write is four bytes from 4j on, and the read puts the four bytes of the word together. -/
theorem bufByteLanes : Obligations.BufByteLanes := by
  unfold Obligations.BufByteLanes
  intro s x j hidle _
  refine ⟨⟨writeBufWord s.buf j x, ?_, fun k hk => ?_, fun a ha => ?_⟩, fun k hk b hb => ?_⟩
  · simp only [writeEffect, whenIdle_of_idle hidle]
  · rw [Memory.read_writeBufWord, if_pos (by omega), Nat.add_sub_cancel_left, byteLane]
  · rw [Memory.read_writeBufWord, if_neg (by omega)]
  · have hlane : bufLane s j k = b := by simp [bufLane, hb]
    have hread : readTarget (.buf j) s = wordOfLanes (bufLane s j 0) (bufLane s j 1) (bufLane s j 2) (bufLane s j 3) := by
      simp [readTarget, hidle]
    rw [hread, ← hlane]
    exact byteLane_wordOfLanes (bufLane s j) hk

end Sys2Proof.Machine
end

section
/-! PROOFS. Host accesses by address and width: what a step does with a read and a write (20 R81, R84, R89, R92). -/
namespace Sys2Proof.Machine

theorem inWindow_eq_false {base address : Nat} (h : address < base ∨ base + 0x4000 ≤ address) :
    inWindow base address = false := by
  rw [← Bool.not_eq_true, inWindow_iff]; omega

/-- The step of a 4-byte write inside the window is the write's effect on the word it reaches. -/
theorem step_write_of_in {s : State} {off : Nat} {x : Word} {rest : List BusEvent} (hoff : off < 0x4000)
    (hin : s.inputs = .write (s.base + off) 4 x :: rest) :
    step s = writeEffect (target s.width off) x { s with inputs := rest } := by
  rw [step_cons hin]
  exact busEvent_write_of_in (s := { s with inputs := rest }) hoff x

/-- Settles O8: the window test comes before anything else of an access. -/
theorem outsideWindowReachesNothing : Obligations.OutsideWindowReachesNothing := by
  unfold Obligations.OutsideWindowReachesNothing
  intro s address size w rest hout hin
  have hwin := inWindow_eq_false hout
  rcases hin with hin | hin <;> rw [step_cons hin] <;> simp [busEvent, hwin]

/-- Settles O9: inside the window the width test comes before the access's effect. -/
theorem narrowAccessRefused : Obligations.NarrowAccessRefused := by
  unfold Obligations.NarrowAccessRefused
  intro s off size w rest hoff hsize hin
  rcases hin with hin | hin <;> rw [step_cons hin] <;> simp [busEvent, hoff, hsize]

/-- Settles O16: the step is `readEffect` of the word the offset reaches. -/
theorem readsHaveNoSideEffect : Obligations.ReadsHaveNoSideEffect := by
  unfold Obligations.ReadsHaveNoSideEffect
  intro s off rest hoff hin
  rw [step_cons hin]
  exact busEvent_read_of_in (s := { s with inputs := rest }) hoff

/-- Settles O15: a reserved word reads 0, draws no free byte, and a write to it is ignored. -/
theorem reservedOffsets : Obligations.ReservedOffsets := by
  unfold Obligations.ReservedOffsets
  intro s off x rest hoff hres
  refine ⟨fun hin => ?_, fun hin => ?_⟩
  · rw [readsHaveNoSideEffect s off rest hoff hin, hres]
    rfl
  · rw [step_write_of_in hoff hin, hres, writeEffect]

end Sys2Proof.Machine
end

section
/-! PROOFS. Host accesses while BUSY and while IDLE (20 R87, R88). -/
namespace Sys2Proof.Machine

theorem whenIdle_of_busy {s : State} (h : isBusy s = true) (s' : State) : whenIdle s s' = lostWrite s := by
  simp [whenIdle, h]

/-- A word accepted at CMD keeps BUSYWR. -/
theorem acceptWord_busywr {w : Word} {s t : State} (h : acceptWord w s = .next t) : t.status.busywr = s.status.busywr := by
  rcases acceptWord_cases w s with ⟨c, p, -, he⟩ | ⟨f, he⟩
  · rw [he] at h; cases h; rfl
  · rw [he] at h; cases h

/-- While IDLE no write sets BUSYWR: each keeps it, or clears it (STATUS, soft reset). -/
theorem busywr_of_writeEffect_idle {s t : State} (hidle : isBusy s = false) {tg : Target} {x : Word}
    (h : writeEffect tg x s = .next t) (ht : t.status.busywr = true) : s.status.busywr = true := by
  cases tg with
  | cmd =>
    simp only [writeEffect, hidle, Bool.false_eq_true, if_false] at h
    rwa [← acceptWord_busywr h]
  | ctrl =>
    cases h
    split at ht
    · cases ht
    · exact ht
  | status =>
    cases h
    rw [clearStatus_status, Bool.and_eq_true] at ht
    exact ht.1
  | id | cfg | reserved | irqen => cases h; exact ht
  | bitsize | klen | codecLen | prm | v | buf =>
    simp only [writeEffect, whenIdle_of_idle hidle] at h
    cases h
    exact ht

/-- Settles O13: target by target, the lost writes, the writes with an effect, and the writes that do nothing. -/
theorem writesAndBusy : Obligations.WritesAndBusy := by
  unfold Obligations.WritesAndBusy
  intro s x
  refine ⟨fun hb => ⟨fun tg htg => ?_, rfl, ?_, rfl⟩, fun tg htg => ?_, fun hidle _ _ => busywr_of_writeEffect_idle hidle⟩
  · rcases htg with rfl | rfl | rfl | rfl | ⟨r, j, rfl⟩ | ⟨r, j, rfl⟩ | ⟨j, rfl⟩
    · simp [writeEffect, hb, lostWrite]
    all_goals simp only [writeEffect, whenIdle_of_busy hb, lostWrite]
  · obtain ⟨t, ht, rfl, -⟩ := statusWriteClears s x
    exact ht
  · simp only [List.mem_cons, List.not_mem_nil, or_false] at htg
    rcases htg with rfl | rfl | rfl <;> rfl

/-- Settles O14: the masked words read 0 and draw nothing; the others are widened with zeros. -/
theorem readsWhileBusy : Obligations.ReadsWhileBusy := by
  unfold Obligations.ReadsWhileBusy
  intro s hb
  refine ⟨fun tg htg => ?_, rfl, toNat_cfgWord s.width, rfl, rfl, rfl, ?_,
    BitVec.toNat_setWidth_of_le (by decide), BitVec.toNat_setWidth_of_le (by decide), BitVec.toNat_setWidth_of_le (by decide)⟩
  · rcases htg with ⟨r, j, rfl⟩ | ⟨r, j, rfl⟩ | ⟨j, rfl⟩ <;> simp [readEffect, readTarget, drawsOf, hb]
  · exact (BitVec.toNat_setWidth_of_le (by decide)).trans (BitVec.toNat_ofBool s.doneIe)

end Sys2Proof.Machine
end

section
/-! PROOFS. The decoder and the encoder, through the rows of the opcode map (30 R121 to R128). -/
namespace Sys2Proof

/-! ### Legal values of a field -/

@[simp] theorem Kind.problem_unused_eq_none (f : Reg) : Kind.unused.problem f = none ↔ f = 0 := by
  simp [Kind.problem]

@[simp] theorem Kind.problem_single_eq_none (f : Reg) : Kind.single.problem f = none := rfl

@[simp] theorem Kind.problem_pair_eq_none (f : Reg) : Kind.pair.problem f = none ↔ f.val ≤ 14 := by
  simp [Kind.problem]

@[simp] theorem Kind.problem_triple_eq_none (f : Reg) : Kind.triple.problem f = none ↔ f.val ≤ 13 := by
  simp [Kind.problem]

@[simp] theorem Row.problem_eq_none (r : Row) (d a b : Reg) :
    r.problem d a b = none ↔ r.rd.problem d = none ∧ r.ra.problem a = none ∧ r.rb.problem b = none := by
  simp [Row.problem, and_assoc]

@[simp] theorem Reg.isSingle_eq_true (f : Reg) : Reg.isSingle f = true := rfl

@[simp] theorem Reg.isPair_iff (f : Reg) : Reg.isPair f = true ↔ f.val ≤ 14 := by simp [Reg.isPair]

@[simp] theorem Reg.isTriple_iff (f : Reg) : Reg.isTriple f = true ↔ f.val ≤ 13 := by simp [Reg.isTriple]

theorem val_regField (w : Word) (lo : Nat) : (regField w lo).val = (w.extractLsb' lo 4).toNat := rfl

/-! ### The rows of the map -/

/-- The row of a well-formed instruction's opcode makes the instruction of the fields of its word, and finds no problem in
them. -/
theorem exists_row_of_wf {i : Instr} (h : i.wf = true) :
    ∃ row d a b, encode i = assemble i.opcode d a b ∧ opcodeRow i.opcode.toNat d a b = some (row, i)
      ∧ row.problem d a b = none := by
  cases i
  all_goals
    refine ⟨_, _, _, _, rfl, rfl, ?_⟩
    simp_all [Instr.wf]

/-- The instruction a row makes has the row's opcode; of fields without a problem it is well formed, and its word holds just
those fields. -/
theorem encode_of_opcodeRow {n : Nat} {d a b : Reg} {row : Row} {i : Instr} (h : opcodeRow n d a b = some (row, i))
    (hp : row.problem d a b = none) : i.opcode.toNat = n ∧ encode i = assemble i.opcode d a b ∧ i.wf = true := by
  unfold opcodeRow at h
  split at h
  case h_19 => cases h  -- the opcode is outside the map
  all_goals
    cases h
    refine ⟨rfl, ?_⟩
    simp_all [encode, Instr.wf]

/-! ### The decoder -/

/-- What the decoder accepts: reserved bits 0, an opcode of the map, and fields without a problem (30 R128). -/
theorem decode_eq_ok_iff (w : Word) (i : Instr) :
    decode w = .ok i ↔ w.extractLsb' 18 14 = 0#14
      ∧ ∃ row, opcodeRow (w.extractLsb' 0 6).toNat (regField w 6) (regField w 10) (regField w 14) = some (row, i)
        ∧ row.problem (regField w 6) (regField w 10) (regField w 14) = none := by
  simp only [decode]
  generalize opcodeRow (w.extractLsb' 0 6).toNat _ _ _ = r
  by_cases hres : w.extractLsb' 18 14 = 0#14
  · rcases r with _ | ⟨row, j⟩ <;> simp [hres, and_comm, and_assoc]
  · simp [hres]

theorem decode_assemble_eq_ok_iff (opc : BitVec 6) (d a b : Reg) (i : Instr) :
    decode (assemble opc d a b) = .ok i
      ↔ ∃ row, opcodeRow opc.toNat d a b = some (row, i) ∧ row.problem d a b = none := by
  simp [decode_eq_ok_iff]

/-- Settles O1: the word holds the fields of which the opcode's row makes the instruction. -/
theorem decodeOfEncode : Obligations.DecodeOfEncode := by
  unfold Obligations.DecodeOfEncode
  intro i hi
  obtain ⟨row, d, a, b, he, hrow, hp⟩ := exists_row_of_wf hi
  rw [he, decode_assemble_eq_ok_iff]
  exact ⟨row, hrow, hp⟩

/-- Settles O2: with the reserved bits 0 a word is its fields put together, and those are the instruction's. -/
theorem encodeOfDecode : Obligations.EncodeOfDecode := by
  unfold Obligations.EncodeOfDecode
  intro w i h
  obtain ⟨hres, row, hrow, hp⟩ := (decode_eq_ok_iff w i).1 h
  obtain ⟨hopc, he, hwf⟩ := encode_of_opcodeRow hrow hp
  rw [he, BitVec.eq_of_toNat_eq hopc]
  exact ⟨assemble_fields w hres, hwf⟩

/-- What the decoder refuses (30 R127). -/
theorem decode_eq_error_iff (w : Word) :
    (∃ e, decode w = .error e) ↔ w.extractLsb' 18 14 ≠ 0
      ∨ ∀ row i, opcodeRow (w.extractLsb' 0 6).toNat (regField w 6) (regField w 10) (regField w 14) = some (row, i) →
        row.problem (regField w 6) (regField w 10) (regField w 14) ≠ none := by
  have hor : (∃ e, decode w = .error e) ↔ ∀ i, decode w ≠ .ok i := by cases decode w <;> simp
  rw [hor]
  simp only [ne_eq, decode_eq_ok_iff, BitVec.ofNat_eq_ofNat]
  by_cases hres : w.extractLsb' 18 14 = 0#14
  · simp only [hres, true_and, not_true, false_or, not_exists, not_and]
    exact forall_comm
  · simp [hres]

/-- Settles O4: the decoder run on each word. -/
theorem sampleWordsDecode : Obligations.SampleWordsDecode := by
  unfold Obligations.SampleWordsDecode
  decide

end Sys2Proof

namespace Sys2Proof.Machine

/-- An illegal word written to CMD while IDLE is accepted and completes with ILLEGAL (60 R322). -/
theorem writeEffect_cmd_of_illegal {w : Word} {e : Illegal} (h : decode w = .error e) {s : State} (hidle : isBusy s = false) :
    ∃ t, writeEffect .cmd w s = .next t ∧ Finishes t (afterCommand s w .illegal false) := by
  refine ⟨_, ?_, finishes_raiseError w .illegal (by decide) s⟩
  simp [writeEffect, hidle, acceptWord, h]

/-- Settles O3: the rows of the map against the rule's kinds, opcode by opcode; then the acceptance of an illegal word, and for
a legal one O2. -/
theorem illegalWordsCompleteIllegal : Obligations.IllegalWordsCompleteIllegal := by
  unfold Obligations.IllegalWordsCompleteIllegal
  intro w s
  refine ⟨?_, fun ⟨e, he⟩ hidle => writeEffect_cmd_of_illegal he hidle, fun hlegal => ?_⟩
  · rw [decode_eq_error_iff]
    refine or_congr_right ?_
    simp only [← val_regField]
    generalize (w.extractLsb' 0 6).toNat = n
    generalize regField w 6 = d
    generalize regField w 10 = a
    generalize regField w 14 = b
    unfold opcodeRow
    split
    case h_19 => simp_all  -- the opcode is outside the map
    all_goals simp [-Fin.val_eq_zero_iff, Fin.ext_iff]
    all_goals omega
  · cases hi : decode w with
    | error e => exact absurd hi (hlegal e)
    | ok i =>
      obtain ⟨he, hwf⟩ := encodeOfDecode w i hi
      exact ⟨i, rfl, hwf, he, by rw [← he, encode_opcode]⟩

end Sys2Proof.Machine
end

section
/-! PROOFS. The assembler on a listed line: the line is taken apart at its separators, none of which is a letter or a digit, and
its parts name the instruction and its registers (30 R132). -/
namespace Sys2Proof.Machine

/-! ### Letters and digits -/

theorem ne_of_isAlphanum {c x : Char} (hc : c.isAlphanum = true) (hx : x.isAlphanum = false) : c ≠ x := by
  rintro rfl
  rw [hc] at hx
  cases hx

theorem isBlank_of_isAlphanum {c : Char} (hc : c.isAlphanum = true) : isBlank c = false := by
  simp [isBlank, ne_of_isAlphanum hc (show ' '.isAlphanum = false from rfl),
    ne_of_isAlphanum hc (show '\t'.isAlphanum = false from rfl)]

/-! ### The name of a register -/

theorem isAlphanum_of_mem_regName {r : Reg} {c : Char} (hc : c ∈ regName r) : c.isAlphanum = true := by
  have h : ∀ r : Reg, (regName r).all Char.isAlphanum = true := by decide
  exact List.all_eq_true.1 (h r) c hc

theorem notMem_regName {x : Char} (hx : x.isAlphanum = false) (r : Reg) : x ∉ regName r :=
  fun h => ne_of_isAlphanum (isAlphanum_of_mem_regName h) hx rfl

theorem regName_eq_cons (r : Reg) : ∃ digits, regName r = 'v' :: digits := by
  unfold regName; split <;> exact ⟨_, rfl⟩

theorem readReg_regName : ∀ r : Reg, readReg (regName r) = some r := by decide

theorem trim_blank_regName : ∀ r : Reg, trim (' ' :: regName r) = regName r := by decide

/-! ### The operands of a line -/

/-- A register's name stands for an operand of every kind, a pair or triple by its base. -/
@[simp] theorem readOperand_regName (k : Kind) (r : Reg) : readOperand k (regName r) = some r := by
  rw [readOperand, List.splitOn_eq_singleton (notMem_regName rfl r)]
  exact readReg_regName r

theorem readOperands_map_regName {ks : List Kind} {rs : List Reg} (h : ks.length = rs.length) :
    readOperands ks (rs.map regName) = some rs := by
  induction ks generalizing rs with
  | nil => cases rs with
    | nil => rfl
    | cons r rs => cases h
  | cons k ks ih => cases rs with
    | nil => cases h
    | cons r rs => simp [readOperands, ih (Nat.succ.inj h)]

theorem listOperands_singleton (r : Reg) : listOperands [r] = ' ' :: regName r := rfl

theorem listOperands_cons_cons (r q : Reg) (rs : List Reg) :
    listOperands (r :: q :: rs) = (' ' :: regName r) ++ ',' :: listOperands (q :: rs) := rfl

/-- A line's operands begin with a blank and the name of a register. -/
theorem listOperands_eq_cons (r : Reg) (rs : List Reg) : ∃ cs, listOperands (r :: rs) = ' ' :: 'v' :: cs := by
  obtain ⟨digits, hr⟩ := regName_eq_cons r
  cases rs with
  | nil => exact ⟨_, by rw [listOperands_singleton, hr]⟩
  | cons q rs => exact ⟨_, by rw [listOperands_cons_cons, hr]; rfl⟩

theorem notMem_listOperands (rs : List Reg) : ';' ∉ listOperands rs := by
  have hname (r : Reg) : ';' ∉ regName r := notMem_regName rfl r
  fun_induction listOperands rs with
  | case1 => simp
  | case2 r => simp [hname r]
  | case3 r rs h ih => simp [hname r, ih]

theorem splitOn_listOperands (r : Reg) (rs : List Reg) :
    (listOperands (r :: rs)).splitOn ',' = (r :: rs).map fun q => ' ' :: regName q := by
  have hcomma (q : Reg) : ',' ∉ ' ' :: regName q := by simp [notMem_regName]
  induction rs generalizing r with
  | nil => exact List.splitOn_eq_singleton (hcomma r)
  | cons q rs ih =>
    rw [listOperands_cons_cons, List.splitOn_append_cons_self_of_not_mem (hcomma r), ih]
    rfl

theorem trim_listOperands_ne_nil (r : Reg) (rs : List Reg) : trim (listOperands (r :: rs)) ≠ [] := by
  obtain ⟨cs, h⟩ := listOperands_eq_cons r rs
  have hdrop : (listOperands (r :: rs)).dropWhile isBlank = 'v' :: cs := by rw [h]; rfl
  rw [trim, hdrop, ne_eq, List.reverse_eq_nil_iff, List.dropWhile_eq_nil_iff]
  intro hblank
  have := hblank 'v' (by simp)
  cases this

theorem operandTexts_listOperands (rs : List Reg) : operandTexts (listOperands rs) = rs.map regName := by
  cases rs with
  | nil => rfl
  | cons r rs =>
    rw [operandTexts, if_neg (trim_listOperands_ne_nil r rs), splitOn_listOperands, List.map_map]
    exact List.map_congr_left fun q _ => trim_blank_regName q

/-! ### A line -/

/-- A mnemonic as a listing writes it: a word of capital letters. -/
def IsMnemonic (m : List Char) : Prop := m ≠ [] ∧ m.all Char.isUpper = true

section
variable {m : List Char} (hm : IsMnemonic m)
include hm

theorem IsMnemonic.isAlphanum {c : Char} (hc : c ∈ m) : c.isAlphanum = true := by
  simp [Char.isAlphanum, Char.isAlpha, List.all_eq_true.1 hm.2 c hc]

/-- A mnemonic is in the case the assembler compares in. -/
theorem IsMnemonic.map_toUpper : m.map Char.toUpper = m := by
  refine (List.map_congr_left fun c hc => ?_).trans m.map_id
  exact Char.toUpper_eq_of_not_isLower fun hl => Char.not_isUpper_of_isLower hl (List.all_eq_true.1 hm.2 c hc)

/-- A listed line has no comment. -/
theorem IsMnemonic.takeWhile_append_listOperands (rs : List Reg) :
    (m ++ listOperands rs).takeWhile (· ≠ ';') = m ++ listOperands rs := by
  refine List.takeWhile_eq_self_iff.2 fun c hc => decide_eq_true ?_
  rcases List.mem_append.1 hc with hc | hc
  · exact ne_of_isAlphanum (hm.isAlphanum hc) rfl
  · exact fun h => notMem_listOperands rs (h ▸ hc)

/-- A listed line begins with its mnemonic. -/
theorem IsMnemonic.dropWhile_isBlank_append (cs : List Char) : (m ++ cs).dropWhile isBlank = m ++ cs := by
  obtain ⟨c, m', rfl⟩ := List.exists_cons_of_ne_nil hm.1
  exact List.dropWhile_cons_of_neg (by simp [isBlank_of_isAlphanum (hm.isAlphanum List.mem_cons_self)])

end

/-- After a word without blanks come the operands, from their blank on. -/
theorem takeWhile_dropWhile_listOperands {m : List Char} (hm : ∀ c ∈ m, isBlank c = false) (rs : List Reg) :
    (m ++ listOperands rs).takeWhile (fun c => !isBlank c) = m
      ∧ (m ++ listOperands rs).dropWhile (fun c => !isBlank c) = listOperands rs := by
  have hm' : ∀ c ∈ m, (!isBlank c) = true := fun c hc => by rw [hm c hc]; rfl
  rw [List.takeWhile_append_of_pos hm', List.dropWhile_append_of_pos hm']
  cases rs with
  | nil => simp [listOperands]
  | cons r rs =>
    obtain ⟨cs, h⟩ := listOperands_eq_cons r rs
    rw [h]
    exact ⟨List.append_nil m, rfl⟩

/-- A line of a mnemonic and as many operands as its form has reads as the instruction the form makes. -/
theorem readLine_append_listOperands {m : List Char} {ks : List Kind} {make : List Reg → Option Instr} {rs : List Reg}
    {i : Instr} (hm : IsMnemonic m) (hform : mnemonicForm m = some (ks, make)) (hlen : ks.length = rs.length)
    (hmake : make rs = some i) : readLine (m ++ listOperands rs) = some (some i) := by
  obtain ⟨htake, hdrop⟩ := takeWhile_dropWhile_listOperands (fun c hc => isBlank_of_isAlphanum (hm.isAlphanum hc)) rs
  simp only [readLine, hm.takeWhile_append_listOperands, hm.dropWhile_isBlank_append, htake, hdrop, hm.map_toUpper,
    if_neg hm.1, hform, operandTexts_listOperands, readOperands_map_regName hlen, hmake, Option.map_some]

/-- A listing is the line of a form that makes its instruction of its operands. -/
theorem exists_form_of_listing (i : Instr) :
    ∃ m ks make rs, listing i = m ++ listOperands rs ∧ IsMnemonic m ∧ mnemonicForm m = some (ks, make)
      ∧ ks.length = rs.length ∧ make rs = some i := by
  unfold IsMnemonic
  cases i with
  | nop => exact ⟨['N', 'O', 'P'], _, _, [], rfl, by decide, rfl, rfl, rfl⟩
  | _ => exact ⟨_, _, _, _, rfl, by decide, rfl, rfl, rfl⟩

/-- Settles O5: the line reads back as the instruction, and assembles to that instruction's word. -/
theorem listingAssembles : Obligations.ListingAssembles := by
  unfold Obligations.ListingAssembles
  intro i _
  obtain ⟨m, ks, make, rs, hline, hm, hform, hlen, hmake⟩ := exists_form_of_listing i
  rw [hline, assembleLine, readLine_append_listOperands hm hform hlen hmake]

end Sys2Proof.Machine
end

section
/-! PROOFS. What the claims of single commands share: the words of an opcode, and an accepted outcome completed. -/
namespace Sys2Proof.Machine

/-- A word with the opcode of a row of the map is the word of the instruction the row makes of its fields, or is illegal (30
R126 to R128). -/
theorem opcodeMeans_of_row {opc : BitVec 6} {f : Instr → Prop} {row : Row} {make : Reg → Reg → Reg → Instr}
    (hrow : ∀ d a b, opcodeRow opc.toNat d a b = some (row, make d a b)) (hf : ∀ d a b, f (make d a b)) :
    OpcodeMeans opc f := by
  intro w hw
  cases hd : decode w with
  | error e => exact .inr ⟨⟨e, rfl⟩, fun _ hidle => writeEffect_cmd_of_illegal hd hidle⟩
  | ok i =>
    obtain ⟨-, row', hi, -⟩ := (decode_eq_ok_iff w i).1 hd
    rw [hw, hrow] at hi
    cases hi
    obtain ⟨he, hwf⟩ := encodeOfDecode w _ hd
    exact .inl ⟨_, hf _ _ _, hwf, he.symm, rfl⟩

section
variable {i : Instr} {s : State} (hwf : i.wf = true)
include hwf

/-- A well-formed instruction without a fault is accepted with its outcome (60 R326). -/
theorem exec_of_outcome {p : Pending} (h : outcome i s = .ok p) : exec i s = .next (accept (encode i) p s) := by
  simp [exec_eq_issueOrFault, issueOrFault, hwf, h]

theorem completes_of_raiseError {e : Err} (he : e ≠ .ok) (h : outcome i s = .ok (raiseError e)) :
    ∃ t, exec i s = .next t ∧ Finishes t (afterCommand s (encode i) e false) :=
  ⟨_, exec_of_outcome hwf h, finishes_raiseError _ e he s⟩

theorem completes_of_writesV {ws : List (Reg × Big)} (h : outcome i s = .ok (writesV ws)) :
    ∃ t, exec i s = .next t
      ∧ Finishes t { afterCommand s (encode i) .ok false with v := writeRegs s.v ws } :=
  ⟨_, exec_of_outcome hwf h, finishes_writesV _ ws s⟩

/-- A command whose parameter check fails (60 R323). -/
theorem completes_badParam {k : Nat → Pending} (hp : paramsOk s = false) (h : outcome i s = .ok (withParams s k)) :
    ∃ t, exec i s = .next t ∧ Finishes t (afterCommand s (encode i) .badParam false) :=
  completes_of_raiseError hwf (by decide) (h.trans (by rw [withParams_of_not hp]))

/-- A command whose one result is below P: the register holds the result as it is. -/
theorem completes_of_toSingle {d : Reg} {x : Nat} (hx : x < s.prm.p.toNat)
    (h : outcome i s = .ok (writesV (toSingle d x))) :
    ∃ (t : State) (y : Big), exec i s = .next t ∧ y.toNat = x
      ∧ Finishes t { afterCommand s (encode i) .ok false with v := setV s.v d y } := by
  obtain ⟨t, he, hf⟩ := completes_of_writesV hwf h
  exact ⟨t, toBig x, he, toNat_toBig_of_lt_modulus hx, hf⟩

/-- A command that writes the residue of an integer, its parameter check passed (40 R161). -/
theorem completes_of_modP {d : Reg} {x : Int} (hp : paramsOk s = true)
    (h : outcome i s = .ok (withParams s fun P => writesV (toSingle d (modP P x)))) :
    ∃ (t : State) (y : Big), exec i s = .next t ∧ y.toNat = modP s.prm.p.toNat x
      ∧ Finishes t { afterCommand s (encode i) .ok false with v := setV s.v d y } :=
  completes_of_toSingle hwf (modP_lt (modulus_pos hp) x) (h.trans (by rw [withParams_of_ok hp]))

end

end Sys2Proof.Machine
end

section
/-! PROOFS. The field commands: each writes the residue its rule names (40 R162 to R168). -/
namespace Sys2Proof.Machine

/-- The residue of a difference is the one that gives the minuend back (40 R166). -/
theorem modP_sub_add_mod {m : Nat} (hm : 0 < m) (x y : Nat) : (modP m ((x : Int) - y) + y) % m = x % m := by
  have h : ((modP m ((x : Int) - y) + y : Nat) : Int) ≡ x [ZMOD m] := by
    simpa using (modP_modEq hm ((x : Int) - y)).add_right (y : Int)
  exact Int.natCast_modEq_iff.1 h

/-- Settles O28: the outcome has no write, and no check comes before it. -/
theorem nopResult : Obligations.NopResult := by
  unfold Obligations.NopResult
  refine ⟨opcodeMeans_of_row (fun _ _ _ => rfl) fun _ _ _ => rfl, fun s _ => ⟨rfl, ?_⟩⟩
  exact completes_of_writesV (i := .nop) (ws := []) rfl rfl

/-- Settles O29: the outcome is one write of the content read at acceptance. -/
theorem movResult : Obligations.MovResult := by
  unfold Obligations.MovResult
  refine ⟨opcodeMeans_of_row (fun _ _ _ => rfl) fun d a _ => ⟨d, a, rfl⟩, fun d a s _ => ⟨assemble_toNat _ d a 0, ?_⟩⟩
  exact completes_of_writesV (i := .mov d a) rfl rfl

/-- Settles O30: the residue of a natural number is its remainder. -/
theorem mredResult : Obligations.MredResult := by
  unfold Obligations.MredResult
  refine ⟨opcodeMeans_of_row (fun _ _ _ => rfl) fun d a _ => ⟨d, a, rfl⟩, fun d a s _ =>
    ⟨assemble_toNat _ d a 0, fun hp => ?_, fun hp => completes_badParam rfl hp rfl⟩⟩
  obtain ⟨t, y, he, hy, hf⟩ := completes_of_modP (i := .mred d a) rfl hp rfl
  exact ⟨t, y, he, hy.trans (modP_natCast _ _), hf⟩

/-- Settles O31: the exact sum is a natural number. -/
theorem maddResult : Obligations.MaddResult := by
  unfold Obligations.MaddResult
  refine ⟨opcodeMeans_of_row (fun _ _ _ => rfl) fun d a b => ⟨d, a, b, rfl⟩, fun d a b s _ =>
    ⟨assemble_toNat _ d a b, fun hp => ?_, fun hp => completes_badParam rfl hp rfl⟩⟩
  obtain ⟨t, y, he, hy, hf⟩ := completes_of_modP (i := .madd d a b) rfl hp rfl
  exact ⟨t, y, he, hy.trans (modP_natCast _ (single s a + single s b)), hf⟩

/-- Settles O32: the result is the Euclidean residue of the difference, which is below P and gives V[a] back. -/
theorem msubResult : Obligations.MsubResult := by
  unfold Obligations.MsubResult
  refine ⟨opcodeMeans_of_row (fun _ _ _ => rfl) fun d a b => ⟨d, a, b, rfl⟩, fun d a b s _ =>
    ⟨assemble_toNat _ d a b, fun hp => ?_, fun hp => completes_badParam rfl hp rfl⟩⟩
  obtain ⟨t, y, he, hy, hf⟩ := completes_of_modP (i := .msub d a b) rfl hp rfl
  have hP := modulus_pos hp
  refine ⟨t, y, he, ?_, ?_, hf⟩
  · rw [hy]; exact modP_lt hP _
  · rw [hy]; exact modP_sub_add_mod hP _ _

/-- Settles O33: the exact product is a natural number. -/
theorem mmulResult : Obligations.MmulResult := by
  unfold Obligations.MmulResult
  refine ⟨opcodeMeans_of_row (fun _ _ _ => rfl) fun d a b => ⟨d, a, b, rfl⟩, fun d a b s _ =>
    ⟨assemble_toNat _ d a b, fun hp => ?_, fun hp => completes_badParam rfl hp rfl⟩⟩
  obtain ⟨t, y, he, hy, hf⟩ := completes_of_modP (i := .mmul d a b) rfl hp rfl
  exact ⟨t, y, he, hy.trans (modP_natCast _ (single s a * single s b)), hf⟩

/-- What MINV's outcome is, its parameter check passed. -/
theorem outcome_minv_of_ok {s : State} (hp : paramsOk s = true) (d a : Reg) :
    outcome (.minv d a) s
      = .ok (orNotInvertible (inverse s.prm.p.toNat (single s a)) fun y => writesV (toSingle d y)) := by
  rw [outcome, withParams_of_ok hp]

/-- Settles O34: the model's `inverse` is the inverse below P, and none exactly when the gcd is not 1. -/
theorem minvResult : Obligations.MinvResult := by
  unfold Obligations.MinvResult
  refine ⟨opcodeMeans_of_row (fun _ _ _ => rfl) fun d a _ => ⟨d, a, rfl⟩, fun d a s _ =>
    ⟨assemble_toNat _ d a 0, fun hp hg => ?_, fun hp hg => ?_, fun hp => completes_badParam rfl hp rfl⟩⟩
  · have hsome : inverse s.prm.p.toNat (single s a) ≠ none := fun h => (inverse_eq_none_iff _ _).1 h hg
    obtain ⟨x, hx⟩ := Option.ne_none_iff_exists'.1 hsome
    obtain ⟨hlt, hmul⟩ := inverse_eq_some (one_lt_modulus hp) hx
    obtain ⟨t, y, he, rfl, hf⟩ :=
      completes_of_toSingle (i := .minv d a) rfl hlt (by rw [outcome_minv_of_ok hp, hx]; rfl)
    exact ⟨t, y, he, hlt, hmul, hf⟩
  · have hnone : inverse s.prm.p.toNat (single s a) = none := (inverse_eq_none_iff _ _).2 hg
    exact completes_of_raiseError (i := .minv d a) rfl (by decide) (by rw [outcome_minv_of_ok hp, hnone]; rfl)

end Sys2Proof.Machine
end

section
/-! PROOFS. The Jacobian formulas as polynomials over the integers mod P: no intermediate reduction can be seen in a result
(41 R204, R205). -/
namespace Sys2Proof.Machine

/-- In the ring of integers mod `m` a residue is its integer. -/
theorem natCast_modP {m : Nat} (hm : 0 < m) (x : Int) : ((modP m x : Nat) : ZMod m) = x := by
  simpa using (ZMod.intCast_eq_intCast_iff _ _ m).2 (modP_modEq hm x)

/-- A residue congruent to 0 is 0. -/
theorem eq_zero_of_modEq_zero {P x : Nat} (hx : x < P) (h : (x : Int) ≡ 0 [ZMOD P]) : x = 0 :=
  Nat.eq_zero_of_dvd_of_lt (Int.natCast_dvd_natCast.1 (Int.modEq_zero_iff_dvd.1 h)) hx

/-- Settles O39: the three results are residues, and an intermediate residue stands for its integer. Z3 is congruent to 2YZ. -/
theorem doubleJacobianFormula : Obligations.DoubleJacobianFormula := by
  unfold Obligations.DoubleJacobianFormula
  intro P j h3
  have hP : 0 < P := by omega
  obtain ⟨hx, hy, hz⟩ := doubleJacobian_below hP j
  have hz3 : ((doubleJacobian P j).z : Int) ≡ (j.y + j.z) ^ 2 - (j.y : Int) ^ 2 - (j.z : Int) ^ 2 [ZMOD P] := by
    rw [← ZMod.intCast_eq_intCast_iff]
    push_cast [doubleJacobian, natCast_modP hP]; ring
  refine ⟨hx, hy, hz, ?_, ?_, hz3, fun h => eq_zero_of_modEq_zero hz (hz3.trans ?_)⟩
  · rw [← ZMod.intCast_eq_intCast_iff]
    push_cast [doubleJacobian, natCast_modP hP]; ring
  · rw [← ZMod.intCast_eq_intCast_iff]
    push_cast [doubleJacobian, natCast_modP hP]; ring
  · have h2 : ((j.y : Int) + j.z) ^ 2 - (j.y : Int) ^ 2 - (j.z : Int) ^ 2 = 2 * j.z * j.y := by ring
    rw [h2, Int.modEq_zero_iff_dvd]
    rcases h with h | h
    · simp [h]
    · exact (Int.natCast_dvd_natCast.2 h).mul_left _

theorem addJacobian_of_z_eq_zero (P : Nat) {j : Jac} (k : Jac) (hj : j.z = 0) : addJacobian P j k = k := if_pos hj

theorem addJacobian_of_second_z_eq_zero (P : Nat) {j k : Jac} (hj : j.z ≠ 0) (hk : k.z = 0) : addJacobian P j k = j :=
  (if_neg hj).trans (if_pos hk)

/-- A coordinate scaled with a reduced factor: the residues compare as the unreduced products do. -/
theorem modP_mul_modP_inj {P : Nat} (hP : 0 < P) (x y u v : Int) :
    ((modP P (x * modP P u) : Nat) : Int) = (modP P (y * modP P v) : Nat) ↔ x * u ≡ y * v [ZMOD P] := by
  rw [Nat.cast_inj, modP_eq_iff hP, ← ZMod.intCast_eq_intCast_iff, ← ZMod.intCast_eq_intCast_iff]
  simp [natCast_modP hP]

/-- Two integers with one value in the ring of integers mod `P` have one residue. -/
theorem modP_congr {P : Nat} (hP : 0 < P) {x y : Int} (h : (x : ZMod P) = y) : modP P x = modP P y :=
  (modP_eq_iff hP x y).2 ((ZMod.intCast_eq_intCast_iff x y P).1 h)

/-- add-2007-bl past the early returns and the doubling case, with no intermediate residue but X3 (41 R204). -/
def chordJacobian (P : Nat) (j k : Jac) : Jac :=
  let U1 : Int := j.x * (k.z : Int) ^ 2
  let S1 : Int := j.y * (k.z : Int) ^ 3
  let H : Int := k.x * (j.z : Int) ^ 2 - U1
  let I := (2 * H) ^ 2
  let r : Int := 2 * (k.y * (j.z : Int) ^ 3 - S1)
  let x3 := modP P (r ^ 2 - H * I - 2 * (U1 * I))
  ⟨x3, modP P (r * (U1 * I - x3) - 2 * S1 * (H * I)),
    modP P ((((j.z : Int) + k.z) ^ 2 - (j.z : Int) ^ 2 - (k.z : Int) ^ 2) * H)⟩

/-- The sum of two triples with Z not 0: the doubling case when both residues agree, else the chord. -/
theorem addJacobian_of_z_ne_zero {P : Nat} (hP : 0 < P) {j k : Jac} (hj : j.z ≠ 0) (hk : k.z ≠ 0) :
    addJacobian P j k =
      if (j.x : Int) * (k.z : Int) ^ 2 ≡ k.x * (j.z : Int) ^ 2 [ZMOD P]
          ∧ (j.y : Int) * (k.z : Int) ^ 3 ≡ k.y * (j.z : Int) ^ 3 [ZMOD P]
      then doubleJacobian P j else chordJacobian P j k := by
  have hcube (y z : Int) : y * z * z ^ 2 = y * z ^ 3 := by ring
  simp only [addJacobian, if_neg hj, if_neg hk, modP_mul_modP_inj hP, hcube, ← pow_two]
  refine if_congr Iff.rfl rfl ?_
  simp only [chordJacobian, Jac.mk.injEq]
  refine ⟨modP_congr hP ?_, modP_congr hP ?_, modP_congr hP ?_⟩
  · push_cast [natCast_modP hP]; ring
  · push_cast [natCast_modP hP]; ring
  · push_cast [natCast_modP hP]; ring

/-- Settles O38: the early returns and the doubling case in order, else the chord; with U1 ≡ U2 its factor H is 0 mod P. -/
theorem addJacobianFormula : Obligations.AddJacobianFormula := by
  unfold Obligations.AddJacobianFormula
  intro P j k h3
  have hP : 0 < P := by omega
  refine ⟨addJacobian_of_z_eq_zero P k, addJacobian_of_second_z_eq_zero P, fun hj hk hU hS => ?_, fun hj hk hne => ?_⟩
  · rw [addJacobian_of_z_ne_zero hP hj hk, if_pos ⟨hU, hS⟩]
  · rw [addJacobian_of_z_ne_zero hP hj hk, if_neg hne]
    have hz : (chordJacobian P j k).z < P := modP_lt hP _
    refine ⟨modP_lt hP _, modP_lt hP _, hz, modP_modEq hP _, modP_modEq hP _, modP_modEq hP _,
      fun hU => eq_zero_of_modEq_zero hz ((modP_modEq hP _).trans ?_)⟩
    exact Int.modEq_zero_iff_dvd.2 (hU.dvd.mul_left _)

end Sys2Proof.Machine
end

section
/-! PROOFS. The conversion to affine form and the membership test, and what the point commands share (41 R201 to R203). -/
namespace Sys2Proof.Machine

theorem affineFromJacobian_of_z_eq_zero (P : Nat) {j : Jac} (hz : j.z = 0) : affineFromJacobian P j = some ⟨0, 0⟩ :=
  if_pos hz

theorem affineFromJacobian_of_inverse {P zi : Nat} {j : Jac} (hz : j.z ≠ 0) (hi : inverse P j.z = some zi) :
    affineFromJacobian P j = some ⟨j.x * zi * zi % P, j.y * zi * zi * zi % P⟩ := by
  rw [affineFromJacobian, if_neg hz, hi]

theorem affineFromJacobian_eq_none_iff (P : Nat) (j : Jac) :
    affineFromJacobian P j = none ↔ j.z ≠ 0 ∧ Nat.gcd (j.z % P) P ≠ 1 := by
  rw [← inverse_eq_none_iff]
  by_cases hz : j.z = 0
  · simp [affineFromJacobian_of_z_eq_zero P hz, hz]
  · cases hi : inverse P j.z with
    | none => simp [affineFromJacobian, hz, hi]
    | some zi => simp [affineFromJacobian_of_inverse hz hi, hz]

/-- The pair of a triple with an invertible Z is the one that Z² and Z³ scale back to X and Y (41 R203). -/
theorem affineFromJacobian_modEq {P : Nat} (hP : 1 < P) {j : Jac} {q : Affine} (hz : j.z ≠ 0)
    (h : affineFromJacobian P j = some q) : q.x * j.z ^ 2 ≡ j.x [MOD P] ∧ q.y * j.z ^ 3 ≡ j.y [MOD P] := by
  cases hi : inverse P j.z with
  | none =>
    have hnone := (affineFromJacobian_eq_none_iff P j).2 ⟨hz, (inverse_eq_none_iff _ _).1 hi⟩
    rw [hnone] at h; cases h
  | some zi =>
    rw [affineFromJacobian_of_inverse hz hi] at h
    cases h
    obtain ⟨-, hmul⟩ := inverse_eq_some hP hi
    have h1 : (j.z : ZMod P) * zi = 1 := by
      exact_mod_cast (ZMod.natCast_eq_natCast_iff' (j.z * zi) 1 P).2 (hmul.trans (Nat.mod_eq_of_lt hP).symm)
    constructor
    · rw [← ZMod.natCast_eq_natCast_iff]
      push_cast [ZMod.natCast_mod]
      linear_combination (j.x : ZMod P) * (j.z * zi + 1) * h1
    · rw [← ZMod.natCast_eq_natCast_iff]
      push_cast [ZMod.natCast_mod]
      linear_combination (j.y : ZMod P) * ((j.z * zi) ^ 2 + j.z * zi + 1) * h1

/-- The membership test is the curve equation mod P (41 R201). -/
theorem isOnCurve_iff {P : Nat} (hP : 0 < P) (B : Nat) (q : Affine) :
    isOnCurve P B q = true ↔ (q.y : Int) ^ 2 ≡ (q.x : Int) ^ 3 - 3 * q.x + B [ZMOD P] := by
  have hy : q.y * q.y % P = modP P ((q.y : Int) ^ 2) := by rw [← modP_natCast]; congr 1; push_cast; ring
  have hx : (q.x : Int) * q.x * q.x = (q.x : Int) ^ 3 := by ring
  rw [isOnCurve, decide_eq_true_iff, hy, hx, modP_eq_iff hP]

section
variable {i : Instr} {s : State} (hwf : i.wf = true)
include hwf

/-- A command whose results are the two coordinates of a point. -/
theorem completes_of_toPair {d : Reg} {q : Affine} (hq : q.x < s.prm.p.toNat ∧ q.y < s.prm.p.toNat)
    (h : outcome i s = .ok (writesV (toPair d q))) :
    ∃ (t : State) (x y : Big), exec i s = .next t ∧ x.toNat = q.x ∧ y.toNat = q.y
      ∧ Finishes t { afterCommand s (encode i) .ok false with v := setV (setV s.v d x) (d + 1) y } := by
  obtain ⟨hx, hy⟩ := hq
  obtain ⟨t, he, hf⟩ := completes_of_writesV hwf h
  exact ⟨t, toBig q.x, toBig q.y, he, toNat_toBig_of_lt_modulus hx, toNat_toBig_of_lt_modulus hy, hf⟩

/-- A command whose results are the three coordinates of a triple, each of which fits in a register. -/
theorem completes_of_toTriple {d : Reg} {q : Jac} (hq : JacBelow (2 ^ 1024) q)
    (h : outcome i s = .ok (writesV (toTriple d q))) :
    ∃ (t : State) (x y z : Big), exec i s = .next t ∧ x.toNat = q.x ∧ y.toNat = q.y ∧ z.toNat = q.z
      ∧ Finishes t { afterCommand s (encode i) .ok false with
          v := setV (setV (setV s.v d x) (d + 1) y) (d + 2) z } := by
  obtain ⟨hx, hy, hz⟩ := hq
  obtain ⟨t, he, hf⟩ := completes_of_writesV hwf h
  exact ⟨t, toBig q.x, toBig q.y, toBig q.z, he, toNat_toBig hx, toNat_toBig hy, toNat_toBig hz, hf⟩

section
variable {d : Reg} {j : Jac} (h : outcome i s =
  .ok (orNotInvertible (affineFromJacobian s.prm.p.toNat j) fun q => writesV (toPair d q)))
include h

/-- A command that ends in a conversion to affine form, when the conversion has a result. -/
theorem completes_of_affine (hp : paramsOk s = true) {q : Affine} (hq : affineFromJacobian s.prm.p.toNat j = some q) :
    ∃ (t : State) (x y : Big), exec i s = .next t ∧ x.toNat = q.x ∧ y.toNat = q.y
      ∧ Finishes t { afterCommand s (encode i) .ok false with v := setV (setV s.v d x) (d + 1) y } :=
  completes_of_toPair hwf (affineFromJacobian_lt (modulus_pos hp) hq) (by rw [h, hq]; rfl)

/-- A command that ends in a conversion to affine form, when Z has no inverse (60 R324). -/
theorem completes_notInvertible (hq : affineFromJacobian s.prm.p.toNat j = none) :
    ∃ t, exec i s = .next t ∧ Finishes t (afterCommand s (encode i) .notInvertible false) :=
  completes_of_raiseError hwf (by decide) (by rw [h, hq]; rfl)

end

end

end Sys2Proof.Machine
end

section
/-! PROOFS. The point commands: each writes what its rule names (41 R201, R206 to R211). -/
namespace Sys2Proof.Machine

/-- A source triple fits in three registers. -/
theorem jacAt_below (s : State) (r : Reg) : JacBelow (2 ^ 1024) (jacAt s r) :=
  ⟨(readV s r).isLt, (readV s (regPlus r 1)).isLt, (readV s (regPlus r 2)).isLt⟩

/-- Settles O35: the outcome is the membership test of the pair read at acceptance. -/
theorem pchkResult : Obligations.PchkResult := by
  unfold Obligations.PchkResult
  refine ⟨opcodeMeans_of_row (fun _ _ _ => rfl) fun _ a _ => ⟨a, rfl⟩, fun a s _ ha => ?_⟩
  have hwf : (Instr.pchk a).wf = true := by simp [Instr.wf, ha]
  refine ⟨assemble_toNat _ 0 a 0, fun hp => ?_, fun hp => completes_badParam hwf hp rfl⟩
  have ho : outcome (.pchk a) s = .ok (writesRes (isOnCurve s.prm.p.toNat s.prm.b.toNat (affineAt s a))) := by
    rw [outcome, withParams_of_ok hp]
  exact ⟨_, _, exec_of_outcome hwf ho, isOnCurve_iff (modulus_pos hp) _ _, finishes_writesRes _ _ s⟩

/-- Settles O36: both coordinates are read at acceptance, and a register holds its own content unreduced. -/
theorem pjacResult : Obligations.PjacResult := by
  unfold Obligations.PjacResult
  refine ⟨opcodeMeans_of_row (fun _ _ _ => rfl) fun d a _ => ⟨d, a, rfl⟩, fun d a s _ hd ha => ?_⟩
  have hwf : (Instr.pjac d a).wf = true := by simp [Instr.wf, hd, ha]
  refine ⟨assemble_toNat _ d a 0, fun hp => ?_, fun hp => completes_badParam hwf hp rfl⟩
  have hlt := jacOfAffine_below (q := affineAt s a) (Nat.one_lt_two_pow (by decide)) (readV s a).isLt
    (readV s (regPlus a 1)).isLt
  obtain ⟨t, x, y, z, he, hx, hy, hz, hf⟩ :=
    completes_of_toTriple (d := d) hwf hlt (by rw [outcome, withParams_of_ok hp])
  obtain rfl : x = readV s a := BitVec.eq_of_toNat_eq hx
  obtain rfl : y = readV s (a + 1) := BitVec.eq_of_toNat_eq hy
  exact ⟨t, z, he, hz, hf⟩

/-- Settles O37: the conversion gives (0, 0) for Z = 0, a scaled pair for an invertible Z, and no result else. -/
theorem paffResult : Obligations.PaffResult := by
  unfold Obligations.PaffResult
  refine ⟨opcodeMeans_of_row (fun _ _ _ => rfl) fun d a _ => ⟨d, a, rfl⟩, fun d a s _ hd ha => ?_⟩
  have hwf : (Instr.paff d a).wf = true := by simp [Instr.wf, hd, ha]
  have ho (hp : paramsOk s = true) : outcome (.paff d a) s =
      .ok (orNotInvertible (affineFromJacobian s.prm.p.toNat (jacAt s a)) fun q => writesV (toPair d q)) := by
    rw [outcome, withParams_of_ok hp]
  have hnone := affineFromJacobian_eq_none_iff s.prm.p.toNat (jacAt s a)
  refine ⟨assemble_toNat _ d a 0, fun hp hz => ?_, fun hp hz hg => ?_, fun hp => completes_badParam hwf hp rfl⟩
  · have hsome : affineFromJacobian s.prm.p.toNat (jacAt s a) ≠ none := fun h =>
      let ⟨h0, hg⟩ := hnone.1 h
      hz.elim h0 hg
    obtain ⟨q, hq⟩ := Option.ne_none_iff_exists'.1 hsome
    obtain ⟨t, x, y, he, hx, hy, hf⟩ := completes_of_affine hwf (ho hp) hp hq
    refine ⟨t, x, y, he, ?_, hf⟩
    split
    next h0 =>
      rw [affineFromJacobian_of_z_eq_zero _ h0] at hq
      cases hq
      exact ⟨BitVec.eq_of_toNat_eq (by simpa using hx), BitVec.eq_of_toNat_eq (by simpa using hy)⟩
    next h0 =>
      obtain ⟨hxlt, hylt⟩ := affineFromJacobian_lt (modulus_pos hp) hq
      obtain ⟨hxm, hym⟩ := affineFromJacobian_modEq (one_lt_modulus hp) h0 hq
      rw [hx, hy]
      exact ⟨hxlt, hylt, hxm, hym⟩
  · exact completes_notInvertible hwf (ho hp) (hnone.2 ⟨hz, hg⟩)

/-- Settles O40: the outcome is the sum of the triples read at acceptance, which fits in three registers. -/
theorem paddjResult : Obligations.PaddjResult := by
  unfold Obligations.PaddjResult
  refine ⟨opcodeMeans_of_row (fun _ _ _ => rfl) fun d a b => ⟨d, a, b, rfl⟩, fun d a b s _ hd ha hb => ?_⟩
  have hwf : (Instr.paddj d a b).wf = true := by simp [Instr.wf, hd, ha, hb]
  refine ⟨assemble_toNat _ d a b, fun hp => ?_, fun hp => completes_badParam hwf hp rfl⟩
  exact completes_of_toTriple hwf
    (addJacobian_below (modulus_pos hp) (modulus_lt s).le (jacAt_below s a) (jacAt_below s b))
    (by rw [outcome, withParams_of_ok hp]; rfl)

/-- Settles O41: the outcome is the double of the triple read at acceptance, three residues. -/
theorem pdbljResult : Obligations.PdbljResult := by
  unfold Obligations.PdbljResult
  refine ⟨opcodeMeans_of_row (fun _ _ _ => rfl) fun d a _ => ⟨d, a, rfl⟩, fun d a s _ hd ha => ?_⟩
  have hwf : (Instr.pdblj d a).wf = true := by simp [Instr.wf, hd, ha]
  refine ⟨assemble_toNat _ d a 0, fun hp => ?_, fun hp => completes_badParam hwf hp rfl⟩
  obtain ⟨hx, hy, hz⟩ := doubleJacobian_below (modulus_pos hp) (jacAt s a)
  have hm := modulus_lt s
  exact completes_of_toTriple hwf ⟨hx.trans hm, hy.trans hm, hz.trans hm⟩ (by rw [outcome, withParams_of_ok hp]; rfl)

/-- Settles O42: the outcome is the conversion of the sum of the pairs read at acceptance. -/
theorem paddResult : Obligations.PaddResult := by
  unfold Obligations.PaddResult
  refine ⟨opcodeMeans_of_row (fun _ _ _ => rfl) fun d a b => ⟨d, a, b, rfl⟩, fun d a b s _ hd ha hb => ?_⟩
  have hwf : (Instr.padd d a b).wf = true := by simp [Instr.wf, hd, ha, hb]
  have ho (hp : paramsOk s = true) : outcome (.padd d a b) s =
      .ok (orNotInvertible (addAffine s.prm.p.toNat (affineAt s a) (affineAt s b)) fun q => writesV (toPair d q)) := by
    rw [outcome, withParams_of_ok hp]
  exact ⟨assemble_toNat _ d a b, fun hp _ hq => completes_of_affine hwf (ho hp) hp hq,
    fun hp hq => completes_notInvertible hwf (ho hp) hq, fun hp => completes_badParam hwf hp rfl⟩

/-- Settles O43: the outcome is the conversion of the double of the pair read at acceptance. -/
theorem pdblResult : Obligations.PdblResult := by
  unfold Obligations.PdblResult
  refine ⟨opcodeMeans_of_row (fun _ _ _ => rfl) fun d a _ => ⟨d, a, rfl⟩, fun d a s _ hd ha => ?_⟩
  have hwf : (Instr.pdbl d a).wf = true := by simp [Instr.wf, hd, ha]
  have ho (hp : paramsOk s = true) : outcome (.pdbl d a) s =
      .ok (orNotInvertible (doubleAffine s.prm.p.toNat (affineAt s a)) fun q => writesV (toPair d q)) := by
    rw [outcome, withParams_of_ok hp]
  exact ⟨assemble_toNat _ d a 0, fun hp _ hq => completes_of_affine hwf (ho hp) hp hq,
    fun hp hq => completes_notInvertible hwf (ho hp) hq, fun hp => completes_badParam hwf hp rfl⟩

end Sys2Proof.Machine
end

section
/-! PROOFS. The laws of the sum and the double (41 R212). The curve equation is followed through the Jacobian formulas, where it
needs no inverse, and divided out once at the conversion to affine form. -/
namespace Sys2Proof.Machine

/-- Settles O44: a pair and itself have the same residues, so the sum takes the doubling case; both give (0, 0) when Z is 0. -/
theorem doubleIsSelfSum : Obligations.DoubleIsSelfSum := by
  unfold Obligations.DoubleIsSelfSum
  intro P q h3
  unfold addAffine doubleAffine
  by_cases hz : (jacOfAffine q).z = 0
  · obtain ⟨-, -, -, -, -, -, hdbl⟩ := doubleJacobianFormula P (jacOfAffine q) h3
    rw [addJacobian_of_z_eq_zero P _ hz, affineFromJacobian_of_z_eq_zero P hz,
      affineFromJacobian_of_z_eq_zero P (hdbl (.inl hz))]
  · rw [addJacobian_of_z_ne_zero (by omega) hz hz, if_pos ⟨rfl, rfl⟩]

/-- The curve equation of a Jacobian triple mod P, Y² = X³ − 3XZ⁴ + BZ⁶: y² = x³ − 3x + B with x = X/Z² and y = Y/Z³. -/
def OnJacobianCurve (P B : Nat) (j : Jac) : Prop :=
  (j.y : ZMod P) ^ 2 = (j.x : ZMod P) ^ 3 - 3 * j.x * (j.z : ZMod P) ^ 4 + B * (j.z : ZMod P) ^ 6

theorem isOnCurve_iff_onJacobianCurve {P : Nat} (hP : 0 < P) (B : Nat) (q : Affine) :
    isOnCurve P B q = true ↔ OnJacobianCurve P B ⟨q.x, q.y, 1⟩ := by
  rw [isOnCurve_iff hP, ← ZMod.intCast_eq_intCast_iff]
  simp [OnJacobianCurve]

/-- The triple of a pair on the curve is on it, the sentinel's (0, 0, 0) included. -/
theorem onJacobianCurve_jacOfAffine {P B : Nat} (hP : 0 < P) {q : Affine} (h : isOnCurve P B q = true) :
    OnJacobianCurve P B (jacOfAffine q) := by
  by_cases hq : q.x = 0 ∧ q.y = 0
  · obtain ⟨hx, hy⟩ := hq
    simp [OnJacobianCurve, jacOfAffine, zForAffine, hx, hy]
  · simpa only [jacOfAffine, zForAffine, if_neg hq] using (isOnCurve_iff_onJacobianCurve hP B q).1 h

/-- The double of a triple on the curve is on it. -/
theorem onJacobianCurve_doubleJacobian {P B : Nat} (h3 : 3 ≤ P) {j : Jac} (h : OnJacobianCurve P B j) :
    OnJacobianCurve P B (doubleJacobian P j) := by
  obtain ⟨-, -, -, hx, hy, hz, -⟩ := doubleJacobianFormula P j h3
  rw [← ZMod.intCast_eq_intCast_iff] at hx hy hz
  push_cast at hx hy hz
  unfold OnJacobianCurve at h ⊢
  rw [hy, hz, hx]
  linear_combination 64 * (j.y : ZMod P) ^ 6 * h

/-- The third point of a chord. With each point scaled to (U, S) by the other's Z and w = Z1·Z2, both satisfy
S² = U³ − 3w⁴U + w⁶B; the cubic and the chord agree at U1 and U2, so the remainder at X3 is a combination of the two equations. -/
theorem chord_on_curve {R : Type} [CommRing R] {U1 U2 S1 S2 w B X3 : R}
    (h1 : S1 ^ 2 = U1 ^ 3 - 3 * w ^ 4 * U1 + w ^ 6 * B) (h2 : S2 ^ 2 = U2 ^ 3 - 3 * w ^ 4 * U2 + w ^ 6 * B)
    (hX : X3 = (2 * (S2 - S1)) ^ 2 - (U2 - U1) * (2 * (U2 - U1)) ^ 2 - 2 * (U1 * (2 * (U2 - U1)) ^ 2)) :
    (2 * (S2 - S1) * (U1 * (2 * (U2 - U1)) ^ 2 - X3) - 2 * S1 * ((U2 - U1) * (2 * (U2 - U1)) ^ 2)) ^ 2
      = X3 ^ 3 - 3 * X3 * (2 * w * (U2 - U1)) ^ 4 + B * (2 * w * (U2 - U1)) ^ 6 := by
  subst hX
  linear_combination 64 * (U2 - U1) ^ 3 * (3 * (U2 - U1) ^ 2 * U1 + 2 * (U2 - U1) ^ 3 - (S2 - S1) ^ 2) * h1
    + 64 * (U2 - U1) ^ 3 * ((S2 - S1) ^ 2 - 3 * (U2 - U1) ^ 2 * U1 - (U2 - U1) ^ 3) * h2

/-- The chord's triple through two triples on the curve is on it. -/
theorem onJacobianCurve_chordJacobian {P B : Nat} (hP : 0 < P) {j k : Jac} (hj : OnJacobianCurve P B j)
    (hk : OnJacobianCurve P B k) : OnJacobianCurve P B (chordJacobian P j k) := by
  unfold OnJacobianCurve at hj hk ⊢
  have h1 : (j.y * (k.z : ZMod P) ^ 3) ^ 2 = (j.x * (k.z : ZMod P) ^ 2) ^ 3
      - 3 * (j.z * k.z : ZMod P) ^ 4 * (j.x * (k.z : ZMod P) ^ 2) + (j.z * k.z : ZMod P) ^ 6 * B := by
    linear_combination (k.z : ZMod P) ^ 6 * hj
  have h2 : (k.y * (j.z : ZMod P) ^ 3) ^ 2 = (k.x * (j.z : ZMod P) ^ 2) ^ 3
      - 3 * (j.z * k.z : ZMod P) ^ 4 * (k.x * (j.z : ZMod P) ^ 2) + (j.z * k.z : ZMod P) ^ 6 * B := by
    linear_combination (j.z : ZMod P) ^ 6 * hk
  have hz : ((j.z : ZMod P) + k.z) ^ 2 - (j.z : ZMod P) ^ 2 - (k.z : ZMod P) ^ 2 = 2 * (j.z * k.z) := by ring
  push_cast [chordJacobian, natCast_modP hP]
  rw [hz]
  exact chord_on_curve h1 h2 rfl

/-- The sum of two triples on the curve is on it, whichever way it is computed. -/
theorem onJacobianCurve_addJacobian {P B : Nat} (h3 : 3 ≤ P) {j k : Jac} (hj : OnJacobianCurve P B j)
    (hk : OnJacobianCurve P B k) : OnJacobianCurve P B (addJacobian P j k) := by
  by_cases hjz : j.z = 0
  · rwa [addJacobian_of_z_eq_zero P k hjz]
  by_cases hkz : k.z = 0
  · rwa [addJacobian_of_second_z_eq_zero P hjz hkz]
  have hP : 0 < P := by omega
  rw [addJacobian_of_z_ne_zero hP hjz hkz]
  split
  · exact onJacobianCurve_doubleJacobian h3 hj
  · exact onJacobianCurve_chordJacobian hP hj hk

/-- The affine pair of a triple on the curve is on it, the sentinel apart: Z is a unit, and Z⁶ cancels. -/
theorem isOnCurve_of_affineFromJacobian {P B : Nat} (hP : 1 < P) {j : Jac} {p : Affine} (h : OnJacobianCurve P B j)
    (hp : affineFromJacobian P j = some p) (hne : p ≠ ⟨0, 0⟩) : isOnCurve P B p = true := by
  have hz : j.z ≠ 0 := fun h0 => hne (by
    rw [affineFromJacobian_of_z_eq_zero P h0] at hp
    exact (Option.some.inj hp).symm)
  have hsome : ¬affineFromJacobian P j = none := by simp [hp]
  have hgcd : Nat.gcd (j.z % P) P = 1 := not_not.1 fun hg => hsome ((affineFromJacobian_eq_none_iff P j).2 ⟨hz, hg⟩)
  have hunit : IsUnit (j.z : ZMod P) :=
    (ZMod.isUnit_iff_coprime _ _).2 ((Nat.gcd_comm _ _).trans ((Nat.gcd_rec P j.z).trans hgcd))
  obtain ⟨hx, hy⟩ := affineFromJacobian_modEq hP hz hp
  rw [← ZMod.natCast_eq_natCast_iff] at hx hy
  push_cast at hx hy
  rw [isOnCurve_iff_onJacobianCurve (by omega)]
  unfold OnJacobianCurve at h ⊢
  rw [← hx, ← hy] at h
  refine (hunit.pow 6).mul_right_cancel ?_
  push_cast
  linear_combination h

/-- Settles O45: pairs on the curve give triples on it, doubles and sums of those are on it, and so is the pair of the result.
The argument needs neither that P is prime nor that P does not divide B. -/
theorem sumsStayOnCurve : Obligations.SumsStayOnCurve := by
  unfold Obligations.SumsStayOnCurve
  intro P B q r p _ h3 _ hq hr
  have hP : 0 < P := by omega
  have hjq := onJacobianCurve_jacOfAffine hP hq
  have hjr := onJacobianCurve_jacOfAffine hP hr
  exact ⟨isOnCurve_of_affineFromJacobian (by omega) (onJacobianCurve_doubleJacobian h3 hjq),
    isOnCurve_of_affineFromJacobian (by omega) (onJacobianCurve_addJacobian h3 hjq hjr)⟩

end Sys2Proof.Machine
end

section
/-! PROOFS. The scalar commands: the check of KLEN, then ScalarMult of the operand (42 R261, R262, R264). -/
namespace Sys2Proof.Machine

theorem withScalarLen_of_le {s : State} (h : s.klen.toNat ≤ Config.scalarBytes s.width) (k : Nat → Pending) :
    withScalarLen s k = k s.klen.toNat := if_pos h

theorem withScalarLen_of_lt {s : State} (h : Config.scalarBytes s.width < s.klen.toNat) (k : Nat → Pending) :
    withScalarLen s k = raiseError .badScalarLen := if_neg (Nat.not_le.2 h)

/-- The four ways a scalar command completes, in the order of its checks from the last to the first: a result, no inverse at
the final conversion, a scalar too long, illegal parameters (60 R325). -/
theorem completes_of_scalarMult {i : Instr} {s : State} (hwf : i.wf = true) {d : Reg} {q : Affine} {k : Nat}
    (h : outcome i s = .ok (withParams s fun P => withScalarLen s fun n =>
      orNotInvertible (scalarMult P q k n) fun r => writesV (toPair d r))) :
    let res := scalarMult s.prm.p.toNat q k s.klen.toNat
    (paramsOk s = true → s.klen.toNat ≤ Config.scalarBytes s.width → ∀ p, res = some p → ∃ (t : State) (x y : Big),
      exec i s = .next t ∧ x.toNat = p.x ∧ y.toNat = p.y
      ∧ Finishes t { afterCommand s (encode i) .ok false with v := setV (setV s.v d x) (d + 1) y })
    ∧ (paramsOk s = true → s.klen.toNat ≤ Config.scalarBytes s.width → res = none → ∃ t, exec i s = .next t
      ∧ Finishes t (afterCommand s (encode i) .notInvertible false))
    ∧ (paramsOk s = true → Config.scalarBytes s.width < s.klen.toNat → ∃ t, exec i s = .next t
      ∧ Finishes t (afterCommand s (encode i) .badScalarLen false))
    ∧ (paramsOk s = false → ∃ t, exec i s = .next t ∧ Finishes t (afterCommand s (encode i) .badParam false)) := by
  refine ⟨fun hp hk _ hq => ?_, fun hp hk hq => ?_, fun hp hk => ?_, fun hp => completes_badParam hwf hp h⟩
  · rw [withParams_of_ok hp, withScalarLen_of_le hk] at h
    exact completes_of_affine hwf h hp hq
  · rw [withParams_of_ok hp, withScalarLen_of_le hk] at h
    exact completes_notInvertible hwf h hq
  · rw [withParams_of_ok hp, withScalarLen_of_lt hk] at h
    exact completes_of_raiseError hwf (by decide) h

/-- Settles O47: the operand is the pair read at acceptance. -/
theorem smulResult : Obligations.SmulResult := by
  unfold Obligations.SmulResult
  refine ⟨opcodeMeans_of_row (fun _ _ _ => rfl) fun d a b => ⟨d, a, b, rfl⟩, fun d a b s _ hd ha => ?_⟩
  have hwf : (Instr.smul d a b).wf = true := by simp [Instr.wf, hd, ha]
  exact ⟨assemble_toNat _ d a b, completes_of_scalarMult hwf rfl⟩

/-- Settles O48: the operand is the base point. -/
theorem sbmulResult : Obligations.SbmulResult := by
  unfold Obligations.SbmulResult
  refine ⟨opcodeMeans_of_row (fun _ _ _ => rfl) fun d a _ => ⟨d, a, rfl⟩, fun d a s _ hd => ?_⟩
  have hwf : (Instr.sbmul d a).wf = true := by simp [Instr.wf, hd]
  exact ⟨assemble_toNat _ d a 0, completes_of_scalarMult hwf rfl⟩

end Sys2Proof.Machine
end

section
/-! PROOFS. The scalar loop (42 R260): which bits it reads, and what it keeps. -/
namespace Sys2Proof.Machine

/-- What the loop does with the accumulator at bit `j` (42 R260). -/
def scalarStep (P : Nat) (q : Affine) (k j : Nat) (acc : Jac) : Jac :=
  if k.testBit j then addJacobian P ⟨q.x, q.y, 1⟩ (doubleJacobian P acc) else doubleJacobian P acc

theorem scalarLoop_zero (P : Nat) (q : Affine) (k : Nat) (acc : Jac) : scalarLoop P q k 0 acc = acc := rfl

theorem scalarLoop_succ (P : Nat) (q : Affine) (k j : Nat) (acc : Jac) :
    scalarLoop P q k (j + 1) acc = scalarLoop P q k j (scalarStep P q k j acc) := rfl

/-- The loop is the run of its accumulators, one for each number of bits still to read. -/
theorem exists_accumulators (P : Nat) (q : Affine) (k n : Nat) (start : Jac) :
    ∃ acc : Nat → Jac, acc n = start ∧ (∀ j < n, acc j = scalarStep P q k j (acc (j + 1)))
      ∧ scalarLoop P q k n start = acc 0 := by
  induction n generalizing start with
  | zero => exact ⟨fun _ => start, rfl, by simp, rfl⟩
  | succ n ih =>
    obtain ⟨acc, hn, hstep, hloop⟩ := ih (scalarStep P q k n start)
    refine ⟨Function.update acc (n + 1) start, by simp, fun j hj => ?_, ?_⟩
    · rcases Nat.lt_succ_iff_lt_or_eq.1 hj with hlt | rfl
      · rw [Function.update_of_ne (by omega), Function.update_of_ne (by omega), hstep j hlt]
      · rw [Function.update_of_ne (by omega), Function.update_self, hn]
    · rw [scalarLoop_succ, hloop, Function.update_of_ne (by omega)]

/-- Settles O49: the loop is a run of accumulators from (0, 0, 0); without bits it leaves that triple, whose Z is 0. -/
theorem scalarMultLoop : Obligations.ScalarMultLoop := by
  unfold Obligations.ScalarMultLoop
  intro P q k _
  refine ⟨affineFromJacobian_of_z_eq_zero P rfl, fun klen => ?_⟩
  obtain ⟨acc, htop, hstep, hloop⟩ := exists_accumulators P q k (8 * klen) ⟨0, 0, 0⟩
  refine ⟨acc, htop, fun n hn => ?_, by rw [scalarMult, hloop]⟩
  rw [hstep n hn, scalarStep, Nat.testBit_eq_decide_div_mod_eq]
  simp only [decide_eq_true_eq]

/-- Two scalars with the same low `n` bits drive `n` rounds of the loop alike. -/
theorem scalarLoop_congr {P : Nat} {q : Affine} {k k' n : Nat} (h : ∀ j < n, k.testBit j = k'.testBit j) (acc : Jac) :
    scalarLoop P q k n acc = scalarLoop P q k' n acc := by
  induction n generalizing acc with
  | zero => rfl
  | succ n ih =>
    have hstep : scalarStep P q k n acc = scalarStep P q k' n acc := by rw [scalarStep, scalarStep, h n (by omega)]
    rw [scalarLoop_succ, scalarLoop_succ, hstep, ih fun j hj => h j (by omega)]

theorem doubleJacobian_identity (P : Nat) : doubleJacobian P ⟨0, 0, 0⟩ = ⟨0, 0, 0⟩ := by
  simp [doubleJacobian, modP]

/-- Leading zero bits leave the accumulator at (0, 0, 0). -/
theorem scalarLoop_leading_zeros (P : Nat) (q : Affine) {k n : Nat} (hk : k < 2 ^ n) {m : Nat} (hm : n ≤ m) :
    scalarLoop P q k m ⟨0, 0, 0⟩ = scalarLoop P q k n ⟨0, 0, 0⟩ := by
  induction m, hm using Nat.le_induction with
  | base => rfl
  | succ m hm ih =>
    have hbit : k.testBit m = false := Nat.testBit_lt_two_pow (hk.trans_le (Nat.pow_le_pow_right (by decide) hm))
    have hstep : scalarStep P q k m ⟨0, 0, 0⟩ = ⟨0, 0, 0⟩ := by
      simp [scalarStep, hbit, doubleJacobian_identity]
    rw [scalarLoop_succ, hstep, ih]

/-- The bits of `n` bytes. -/
theorem pow_256_eq (n : Nat) : 256 ^ n = 2 ^ (8 * n) := Nat.pow_mul 2 8 n |>.symm

/-- Settles O50: bits from 8·KLEN on are not read, and those above the scalar's highest leave the accumulator (0, 0, 0). -/
theorem scalarLength : Obligations.ScalarLength := by
  unfold Obligations.ScalarLength
  intro P q k _
  refine ⟨fun klen => ?_, fun n m hk hnm => ?_⟩
  · have hbits (j : Nat) (hj : j < 8 * klen) : (k % 256 ^ klen).testBit j = k.testBit j := by
      simp [pow_256_eq, Nat.testBit_mod_two_pow, hj]
    rw [scalarMult, scalarMult, scalarLoop_congr hbits]
  · rw [pow_256_eq] at hk
    rw [scalarMult, scalarMult, scalarLoop_leading_zeros P q hk (by omega)]

/-- A triple that stands for the sentinel in the loop: the point at infinity, or the operand (0, 0) with its Z of 1. -/
def IsSentinelJac (j : Jac) : Prop := j.z = 0 ∨ j = ⟨0, 0, 1⟩

/-- A double of such a triple has Z = 0, whichever of the two it is. -/
theorem doubleJacobian_z_of_isSentinelJac {P : Nat} (h3 : 3 ≤ P) {j : Jac} (h : IsSentinelJac j) :
    (doubleJacobian P j).z = 0 := by
  obtain ⟨-, -, -, -, -, -, hz⟩ := doubleJacobianFormula P j h3
  rcases h with h0 | rfl
  · exact hz (.inl h0)
  · exact hz (.inr (dvd_zero P))

theorem isSentinelJac_scalarStep {P : Nat} (h3 : 3 ≤ P) (k j : Nat) {acc : Jac} (h : IsSentinelJac acc) :
    IsSentinelJac (scalarStep P ⟨0, 0⟩ k j acc) := by
  have hz := doubleJacobian_z_of_isSentinelJac h3 h
  unfold scalarStep
  split
  · exact .inr (addJacobian_of_second_z_eq_zero P one_ne_zero hz)
  · exact .inl hz

theorem isSentinelJac_scalarLoop {P : Nat} (h3 : 3 ≤ P) (k n : Nat) {acc : Jac} (h : IsSentinelJac acc) :
    IsSentinelJac (scalarLoop P ⟨0, 0⟩ k n acc) := by
  induction n generalizing acc with
  | zero => exact h
  | succ n ih => exact ih (isSentinelJac_scalarStep h3 k n h)

theorem affineFromJacobian_of_isSentinelJac {P : Nat} (hP : 1 < P) {j : Jac} (h : IsSentinelJac j) :
    affineFromJacobian P j = some ⟨0, 0⟩ := by
  rcases h with h0 | rfl
  · exact affineFromJacobian_of_z_eq_zero P h0
  · have hsome : inverse P 1 ≠ none := fun hn =>
      (inverse_eq_none_iff P 1).1 hn (by rw [Nat.mod_eq_of_lt hP, Nat.gcd_one_left])
    obtain ⟨zi, hzi⟩ := Option.ne_none_iff_exists'.1 hsome
    simp [affineFromJacobian_of_inverse (j := ⟨0, 0, 1⟩) one_ne_zero hzi]

/-- Settles O51: every accumulator is a triple of the sentinel, since every double has Z = 0. -/
theorem scalarOfSentinel : Obligations.ScalarOfSentinel := by
  unfold Obligations.ScalarOfSentinel
  intro P k klen h3
  exact affineFromJacobian_of_isSentinelJac (by omega) (isSentinelJac_scalarLoop h3 k _ (.inl rfl))

end Sys2Proof.Machine
end

section
/-! PROOFS. The Jacobian formulas are the group law of Mathlib's Weierstrass curve, and the scalar loop is its multiple (42 R263).
A triple stands for a point of the group; doubling and addition keep this, the loop adds up the bits, and the conversion to
affine form gives the point's coordinates. -/
namespace Sys2Proof.Machine
open WeierstrassCurve.Affine (Point)

/-- The curve y² = x³ − 3x + B over the integers mod P (41 R200). -/
abbrev ecCurve (P B : Nat) : WeierstrassCurve.Affine (ZMod P) :=
  (⟨0, 0, 0, -3, B⟩ : WeierstrassCurve (ZMod P)).toAffine

theorem ecCurve_negY {P B : Nat} (x y : ZMod P) : (ecCurve P B).negY x y = -y := by
  simp only [WeierstrassCurve.Affine.negY]; ring

theorem ecCurve_addX {P B : Nat} (x1 x2 l : ZMod P) : (ecCurve P B).addX x1 x2 l = l ^ 2 - x1 - x2 := by
  simp only [WeierstrassCurve.Affine.addX]; ring

theorem ecCurve_addY {P B : Nat} (x1 x2 y1 l : ZMod P) :
    (ecCurve P B).addY x1 x2 y1 l = l * (2 * x1 + x2 - l ^ 2) - y1 := by
  simp only [WeierstrassCurve.Affine.addY, WeierstrassCurve.Affine.negAddY, ecCurve_addX, ecCurve_negY]; ring

/-- A triple stands for a point: Z = 0 for the point at infinity, else Z is not 0 mod P and X = x·Z², Y = y·Z³ (41 R203). -/
def Represents {P B : Nat} (j : Jac) : (ecCurve P B).Point → Prop
  | .zero => j.z = 0
  | .some x y _ => (j.z : ZMod P) ≠ 0 ∧ (j.x : ZMod P) = x * (j.z : ZMod P) ^ 2 ∧ (j.y : ZMod P) = y * (j.z : ZMod P) ^ 3

/-- The affine pair of a point: the sentinel for the point at infinity, else the coordinates' residues (42 R263). -/
def HasCoordinates {P B : Nat} (r : Affine) : (ecCurve P B).Point → Prop
  | .zero => r = ⟨0, 0⟩
  | .some x y _ => x = (r.x : ZMod P) ∧ y = (r.y : ZMod P)

section
variable {P B : Nat}

theorem represents_zero_iff {j : Jac} : Represents j (0 : (ecCurve P B).Point) ↔ j.z = 0 := Iff.rfl

theorem represents_some_iff {j : Jac} {x y : ZMod P} {h : (ecCurve P B).Nonsingular x y} :
    Represents j (Point.some x y h) ↔ (j.z : ZMod P) ≠ 0 ∧ (j.x : ZMod P) = x * (j.z : ZMod P) ^ 2
      ∧ (j.y : ZMod P) = y * (j.z : ZMod P) ^ 3 := Iff.rfl

theorem z_ne_zero_of_cast {j : Jac} (h : (j.z : ZMod P) ≠ 0) : j.z ≠ 0 := fun h0 => h (by simp [h0])

/-- dbl-2001-b over the integers mod P (41 R205). -/
theorem doubleJacobian_cast (h3 : 3 ≤ P) (j : Jac) :
    let q := doubleJacobian P j
    let α : ZMod P := 3 * (j.x - (j.z : ZMod P) ^ 2) * (j.x + (j.z : ZMod P) ^ 2)
    (q.x : ZMod P) = α ^ 2 - 8 * (j.x * (j.y : ZMod P) ^ 2)
    ∧ (q.y : ZMod P) = α * (4 * (j.x * (j.y : ZMod P) ^ 2) - q.x) - 8 * (j.y : ZMod P) ^ 4
    ∧ (q.z : ZMod P) = 2 * j.y * j.z := by
  obtain ⟨-, -, -, hx, hy, hz, -⟩ := doubleJacobianFormula P j h3
  rw [← ZMod.intCast_eq_intCast_iff] at hx hy hz
  push_cast at hx hy hz
  exact ⟨hx, by rw [hy]; ring, by rw [hz]; ring⟩

/-- add-2007-bl past the early returns and the doubling case, over the integers mod P (41 R204). -/
theorem chordJacobian_cast (hP : 0 < P) (j k : Jac) :
    let q := chordJacobian P j k
    let U1 : ZMod P := j.x * (k.z : ZMod P) ^ 2
    let S1 : ZMod P := j.y * (k.z : ZMod P) ^ 3
    let H : ZMod P := k.x * (j.z : ZMod P) ^ 2 - U1
    let r : ZMod P := 2 * (k.y * (j.z : ZMod P) ^ 3 - S1)
    (q.x : ZMod P) = r ^ 2 - 4 * H ^ 3 - 8 * U1 * H ^ 2
    ∧ (q.y : ZMod P) = r * (4 * U1 * H ^ 2 - q.x) - 8 * S1 * H ^ 3
    ∧ (q.z : ZMod P) = 2 * j.z * k.z * H := by
  refine ⟨?_, ?_, ?_⟩
  · push_cast [chordJacobian, natCast_modP hP]; ring
  · push_cast [chordJacobian, natCast_modP hP]; ring
  · push_cast [chordJacobian, natCast_modP hP]; ring

end

section
variable {P B : Nat} [Fact P.Prime]

/-- The comparison of scaled coordinates is the comparison of the points' coordinates. -/
theorem scaled_modEq_iff {j k : Jac} {x1 y1 x2 y2 : ZMod P} {h1 : (ecCurve P B).Nonsingular x1 y1}
    {h2 : (ecCurve P B).Nonsingular x2 y2} (hj : Represents j (Point.some x1 y1 h1))
    (hk : Represents k (Point.some x2 y2 h2)) :
    ((j.x : Int) * (k.z : Int) ^ 2 ≡ k.x * (j.z : Int) ^ 2 [ZMOD P] ↔ x1 = x2)
    ∧ ((j.y : Int) * (k.z : Int) ^ 3 ≡ k.y * (j.z : Int) ^ 3 [ZMOD P] ↔ y1 = y2) := by
  obtain ⟨hz1, hx1, hy1⟩ := represents_some_iff.1 hj
  obtain ⟨hz2, hx2, hy2⟩ := represents_some_iff.1 hk
  rw [← ZMod.intCast_eq_intCast_iff, ← ZMod.intCast_eq_intCast_iff]
  push_cast
  rw [hx1, hx2, hy1, hy2, mul_right_comm x2, mul_right_comm y2]
  constructor
  · rw [mul_left_inj' (pow_ne_zero 2 hz2), mul_left_inj' (pow_ne_zero 2 hz1)]
  · rw [mul_left_inj' (pow_ne_zero 3 hz2), mul_left_inj' (pow_ne_zero 3 hz1)]

variable (h3 : 3 ≤ P)
include h3

theorem two_ne_zero_zmod : (2 : ZMod P) ≠ 0 := by
  have h : ((2 : Nat) : ZMod P) ≠ 0 := by
    rw [Ne, ZMod.natCast_eq_zero_iff]
    exact fun hd => absurd (Nat.le_of_dvd (by decide) hd) (by omega)
  exact_mod_cast h

/-- A point is its own negative exactly when y = 0. -/
theorem eq_negY_self_iff (x y : ZMod P) : y = (ecCurve P B).negY x y ↔ y = 0 := by
  have h2y : y = -y ↔ 2 * y = 0 := by rw [eq_neg_iff_add_eq_zero, two_mul]
  rw [ecCurve_negY, h2y, mul_eq_zero, or_iff_right (two_ne_zero_zmod h3)]

/-- The slope of the tangent at a point with y ≠ 0. -/
theorem slope_self_mul {x y : ZMod P} (hself : y ≠ (ecCurve P B).negY x y) :
    (ecCurve P B).slope x x y y * (2 * y) = 3 * x ^ 2 - 3 := by
  have h2y : 2 * y ≠ 0 := mul_ne_zero (two_ne_zero_zmod h3) fun h0 => hself ((eq_negY_self_iff h3 x y).2 h0)
  have hden : y - (ecCurve P B).negY x y = 2 * y := by rw [ecCurve_negY]; ring
  rw [WeierstrassCurve.Affine.slope_of_Y_ne rfl hself, hden, div_mul_cancel₀ _ h2y]
  ring

/-- The double of a triple stands for the double of the point: at y = 0 both are at infinity, else Z3 = 2yZ⁴ and X3, Y3 follow
the tangent. -/
theorem represents_doubleJacobian {j : Jac} {S : (ecCurve P B).Point} (h : Represents j S) :
    Represents (doubleJacobian P j) (S + S) := by
  obtain ⟨-, -, -, -, -, -, hz0⟩ := doubleJacobianFormula P j h3
  cases S with
  | zero => exact hz0 (.inl h)
  | some x y hns =>
    obtain ⟨hz, hx, hy⟩ := represents_some_iff.1 h
    by_cases hself : y = (ecCurve P B).negY x y
    · have hy0 : y = 0 := (eq_negY_self_iff h3 x y).1 hself
      rw [Point.add_self_of_Y_eq hself, represents_zero_iff]
      exact hz0 (.inr ((ZMod.natCast_eq_zero_iff _ _).1 (by rw [hy, hy0, zero_mul])))
    · have h2 := two_ne_zero_zmod h3
      have hy0 : y ≠ 0 := fun h0 => hself ((eq_negY_self_iff h3 x y).2 h0)
      rw [Point.add_self_of_Y_ne hself, represents_some_iff]
      have hslope := slope_self_mul h3 hself
      generalize (ecCurve P B).slope x x y y = l at hslope ⊢
      obtain ⟨hx3, hy3, hz3⟩ := doubleJacobian_cast h3 j
      have hα : 3 * (j.x - (j.z : ZMod P) ^ 2) * (j.x + (j.z : ZMod P) ^ 2) = l * (2 * y) * (j.z : ZMod P) ^ 4 := by
        rw [hx, hslope]; ring
      rw [hα, hx, hy] at hx3 hy3
      rw [hy] at hz3
      refine ⟨?_, ?_, ?_⟩
      · rw [hz3]; simp [h2, hy0, hz]
      · rw [hx3, hz3, ecCurve_addX]; ring
      · rw [hy3, hx3, hz3, ecCurve_addY]; ring

/-- The chord's triple stands for the sum of two points with different x: Z3 = 2w³(x2 − x1) with w = Z1·Z2. -/
theorem represents_chordJacobian {j k : Jac} {x1 y1 x2 y2 : ZMod P} {h1 : (ecCurve P B).Nonsingular x1 y1}
    {h2 : (ecCurve P B).Nonsingular x2 y2} (hj : Represents j (Point.some x1 y1 h1))
    (hk : Represents k (Point.some x2 y2 h2)) (hne : x1 ≠ x2) :
    Represents (chordJacobian P j k) (Point.some x1 y1 h1 + Point.some x2 y2 h2) := by
  obtain ⟨hz1, hx1, hy1⟩ := represents_some_iff.1 hj
  obtain ⟨hz2, hx2, hy2⟩ := represents_some_iff.1 hk
  have hsub : x2 - x1 ≠ 0 := sub_ne_zero.2 hne.symm
  rw [Point.add_of_X_ne hne, represents_some_iff]
  have hslope : y2 = y1 + (ecCurve P B).slope x1 x2 y1 y2 * (x2 - x1) := by
    rw [WeierstrassCurve.Affine.slope_of_X_ne hne]
    linear_combination div_mul_cancel₀ (y1 - y2) (sub_ne_zero.2 hne)
  generalize (ecCurve P B).slope x1 x2 y1 y2 = l at hslope ⊢
  obtain ⟨hx3, hy3, hz3⟩ := chordJacobian_cast (P := P) (by omega) j k
  rw [hx1, hy1, hx2, hy2, hslope] at hx3 hy3
  rw [hx1, hx2] at hz3
  refine ⟨?_, ?_, ?_⟩
  · have hfac : ((chordJacobian P j k).z : ZMod P) = 2 * (j.z * k.z) ^ 3 * (x2 - x1) := by rw [hz3]; ring
    rw [hfac]
    simp [two_ne_zero_zmod h3, hz1, hz2, hsub]
  · rw [hx3, hz3, ecCurve_addX]; ring
  · rw [hy3, hx3, hz3, ecCurve_addY]; ring

/-- The sum of two triples stands for the sum of the points: an operand at infinity, equal points, opposite points, and a chord. -/
theorem represents_addJacobian {j k : Jac} {S T : (ecCurve P B).Point} (hj : Represents j S) (hk : Represents k T) :
    Represents (addJacobian P j k) (S + T) := by
  cases S with
  | zero =>
    rw [addJacobian_of_z_eq_zero P k hj]
    exact (zero_add T).symm ▸ hk
  | some x1 y1 h1 =>
    have hjz := z_ne_zero_of_cast (represents_some_iff.1 hj).1
    cases T with
    | zero =>
      rw [addJacobian_of_second_z_eq_zero P hjz hk]
      exact (add_zero (Point.some x1 y1 h1)).symm ▸ hj
    | some x2 y2 h2 =>
      have hkz := z_ne_zero_of_cast (represents_some_iff.1 hk).1
      obtain ⟨hxx, hyy⟩ := scaled_modEq_iff hj hk
      obtain ⟨-, -, -, hchord⟩ := addJacobianFormula P j k h3
      have hsum := addJacobian_of_z_ne_zero (P := P) (by omega) hjz hkz
      by_cases hx : x1 = x2
      · by_cases hy : y1 = y2
        · subst hx hy
          rw [hsum, if_pos ⟨hxx.2 rfl, hyy.2 rfl⟩]
          exact represents_doubleJacobian h3 hj
        · have hneg := (WeierstrassCurve.Affine.Y_eq_of_X_eq h1.1 h2.1 hx).resolve_left hy
          obtain ⟨-, -, -, -, -, -, hz0⟩ := hchord hjz hkz fun hboth => hy (hyy.1 hboth.2)
          rw [Point.add_of_Y_eq hx hneg, represents_zero_iff]
          exact hz0 (hxx.2 hx)
      · rw [hsum, if_neg fun hboth => hx (hxx.1 hboth.1)]
        exact represents_chordJacobian h3 hj hk hx

/-- A round of the loop doubles the accumulator's point and adds the operand when the bit is set. -/
theorem represents_scalarStep {q : Affine} {acc : Jac} {Q S : (ecCurve P B).Point} (hq : Represents ⟨q.x, q.y, 1⟩ Q)
    (hacc : Represents acc S) (k j : Nat) :
    Represents (scalarStep P q k j acc) ((k.testBit j).toNat • Q + 2 • S) := by
  have hdbl := represents_doubleJacobian h3 hacc
  rw [← two_nsmul] at hdbl
  unfold scalarStep
  cases k.testBit j with
  | false => simpa using hdbl
  | true => simpa using represents_addJacobian h3 hq hdbl

/-- `n` rounds of the loop shift the accumulator's multiple by `n` bits and add the low `n` bits of the scalar. -/
theorem represents_scalarLoop {q : Affine} {Q : (ecCurve P B).Point} (hq : Represents ⟨q.x, q.y, 1⟩ Q) (k n : Nat)
    {acc : Jac} {S : (ecCurve P B).Point} (hacc : Represents acc S) :
    Represents (scalarLoop P q k n acc) (2 ^ n • S + (k % 2 ^ n) • Q) := by
  induction n generalizing acc S with
  | zero => simpa [scalarLoop_zero, Nat.mod_one] using hacc
  | succ n ih =>
    have hsum : 2 ^ (n + 1) • S + (k % 2 ^ (n + 1)) • Q
        = 2 ^ n • ((k.testBit n).toNat • Q + 2 • S) + (k % 2 ^ n) • Q := by
      rw [Nat.mod_pow_succ, ← Nat.toNat_testBit, pow_succ, add_nsmul, nsmul_add, mul_nsmul', mul_nsmul']
      abel
    rw [scalarLoop_succ, hsum]
    exact ih (represents_scalarStep h3 hq hacc k n)

/-- The conversion to affine form gives the sentinel for the point at infinity, else the point's reduced coordinates. -/
theorem affineFromJacobian_of_represents {j : Jac} {S : (ecCurve P B).Point} (h : Represents j S) :
    ∃ r : Affine, affineFromJacobian P j = some r ∧ r.x < P ∧ r.y < P ∧ HasCoordinates r S := by
  have hP : 1 < P := by omega
  cases S with
  | zero => exact ⟨_, affineFromJacobian_of_z_eq_zero P h, zero_lt_one.trans hP, zero_lt_one.trans hP, rfl⟩
  | some x y hns =>
    obtain ⟨hz, hx, hy⟩ := represents_some_iff.1 h
    have hgcd : Nat.gcd (j.z % P) P = 1 := by
      rw [← Nat.gcd_rec, Nat.gcd_comm]
      exact (ZMod.isUnit_iff_coprime _ _).1 hz.isUnit
    have hsome : affineFromJacobian P j ≠ none := fun hn =>
      ((affineFromJacobian_eq_none_iff P j).1 hn).2 hgcd
    obtain ⟨r, hr⟩ := Option.ne_none_iff_exists'.1 hsome
    obtain ⟨hrx, hry⟩ := affineFromJacobian_lt (by omega) hr
    obtain ⟨hmx, hmy⟩ := affineFromJacobian_modEq hP (z_ne_zero_of_cast hz) hr
    rw [← ZMod.natCast_eq_natCast_iff] at hmx hmy
    push_cast at hmx hmy
    refine ⟨r, hr, hrx, hry, ?_, ?_⟩
    · exact mul_right_cancel₀ (pow_ne_zero 2 hz) (hx.symm.trans hmx.symm)
    · exact mul_right_cancel₀ (pow_ne_zero 3 hz) (hy.symm.trans hmy.symm)

end

/-- Settles O52: the operand with Z = 1 stands for the point, so the last accumulator stands for its multiple by the low 8·KLEN
bits, which are the whole scalar. -/
theorem scalarMultIsGroupMultiple : Obligations.ScalarMultIsGroupMultiple := by
  unfold Obligations.ScalarMultIsGroupMultiple
  intro P B _ q k klen h3 _ _ hk hns
  have hq : Represents (P := P) (B := B) ⟨q.x, q.y, 1⟩ (Point.some _ _ hns) := by
    simp [represents_some_iff]
  have hloop := represents_scalarLoop h3 hq k (8 * klen) (acc := ⟨0, 0, 0⟩) (S := 0) rfl
  rw [← pow_256_eq, Nat.mod_eq_of_lt hk, nsmul_zero, zero_add] at hloop
  obtain ⟨r, hr, hrx, hry, hcoord⟩ := affineFromJacobian_of_represents h3 hloop
  refine ⟨r, hr, hrx, hry, ?_⟩
  cases hT : k • Point.some _ _ hns with
  | zero => rw [hT] at hcoord; exact hcoord
  | some x y h => rw [hT] at hcoord; exact hcoord

end Sys2Proof.Machine
end

section
/-! PROOFS. The point codec (43 R291 to R293): the bytes PENC leaves in BUF, and the pair PDEC reads from them. -/
namespace Sys2Proof.Machine

/-! ### Big-endian bytes and the encoding -/

/-- `BE` as the sum of its bytes, each shifted to its place (00 R12). -/
theorem natOfBE_eq_sum (bs : List Byte) :
    natOfBE bs = ∑ i ∈ Finset.range bs.length, (bs.getD i 0).toNat * 256 ^ (bs.length - 1 - i) := by
  induction bs using List.reverseRecOn with
  | nil => rfl
  | append_singleton xs x ih =>
    rw [natOfBE_append, ih, List.length_append, List.length_singleton, Finset.sum_range_succ, Finset.sum_mul]
    congr 1
    · refine Finset.sum_congr rfl fun i hi => ?_
      rw [Finset.mem_range] at hi
      rw [List.getD_append _ _ _ _ hi, show xs.length + 1 - 1 - i = xs.length - 1 - i + 1 by omega, pow_succ, mul_assoc]
    · simp

theorem getElem?_encodePoint_x {n i : Nat} (q : Affine) (hi : i < n) :
    (encodePoint n q)[1 + i]? = (bytesBE q.x n)[i]? := by
  rw [encodePoint, Nat.add_comm, List.getElem?_cons_succ, List.getElem?_append_left (by simpa using hi)]

theorem getElem?_encodePoint_y (n i : Nat) (q : Affine) :
    (encodePoint n q)[1 + n + i]? = (bytesBE q.y n)[i]? := by
  rw [encodePoint, Nat.add_assoc, Nat.add_comm, List.getElem?_cons_succ, List.getElem?_append_right (by simp),
    length_bytesBE, Nat.add_sub_cancel_left]

/-- The encoding of a point stands in BUF from byte 0 on: the tag, the bytes of x, the bytes of y (43 R291). -/
structure HoldsEncoding (m : Memory) (n : Nat) (q : Affine) : Prop where
  tag : Memory.read m 0 = some 4#8
  x : ∀ i < n, Memory.read m (1 + i) = (bytesBE q.x n)[i]?
  y : ∀ i < n, Memory.read m (1 + n + i) = (bytesBE q.y n)[i]?

theorem read_writeBytes_encodePoint (m : Memory) (n : Nat) (q : Affine) {a : Nat} (ha : a < 1 + 2 * n) :
    Memory.read (Memory.writeBytes m 0 (encodePoint n q)) a = (encodePoint n q)[a]? := by
  rw [Memory.read_writeBytes, length_encodePoint, if_pos (by omega), Nat.sub_zero]

theorem holdsEncoding_writeBytes (m : Memory) (n : Nat) (q : Affine) :
    HoldsEncoding (Memory.writeBytes m 0 (encodePoint n q)) n q where
  tag := read_writeBytes_encodePoint m n q (by omega)
  x i hi := (read_writeBytes_encodePoint m n q (by omega)).trans (getElem?_encodePoint_x q hi)
  y i hi := (read_writeBytes_encodePoint m n q (by omega)).trans (getElem?_encodePoint_y n i q)

/-! ### PENC -/

/-- A PENC of coordinates that fit leaves their encoding in BUF, the bytes above it as they were, and the length (43 R291). -/
theorem completes_penc_of_fits {a : Reg} {s : State} (ha : a.val ≤ 14) (hs : paramsOk s = true)
    (hx : single s a < 256 ^ byteLen s) (hy : single s (a + 1) < 256 ^ byteLen s) :
    ∃ (t : State) (m : Memory), exec (.penc a) s = .next t ∧ HoldsEncoding m (byteLen s) (affineAt s a)
      ∧ (∀ i, 1 + 2 * byteLen s ≤ i → Memory.read m i = Memory.read s.buf i)
      ∧ Finishes t { afterCommand s (encode (.penc a)) .ok false with
          buf := m, codecLen := BitVec.ofNat 16 (1 + 2 * byteLen s) } := by
  have hwf : (Instr.penc a).wf = true := by simp [Instr.wf, ha]
  have hfit : ¬(256 ^ byteLen s ≤ (affineAt s a).x ∨ 256 ^ byteLen s ≤ (affineAt s a).y) :=
    not_or.2 ⟨not_le.2 hx, not_le.2 hy⟩
  refine ⟨_, _, exec_of_outcome hwf (by rw [outcome, withParams_of_ok hs, pencOutcome, if_neg hfit]),
    holdsEncoding_writeBytes s.buf _ _, fun i hi => ?_, rfl, rfl⟩
  rw [Memory.read_writeBytes, length_encodePoint, if_neg (by omega)]

/-- A PENC of a coordinate that does not fit (43 R291). -/
theorem completes_penc_range {a : Reg} {s : State} (ha : a.val ≤ 14) (hs : paramsOk s = true)
    (h : 256 ^ byteLen s ≤ single s a ∨ 256 ^ byteLen s ≤ single s (a + 1)) :
    ∃ t, exec (.penc a) s = .next t ∧ Finishes t (afterCommand s (encode (.penc a)) .range false) :=
  completes_of_raiseError (by simp [Instr.wf, ha]) (by decide)
    (by rw [outcome, withParams_of_ok hs, pencOutcome]; exact congrArg _ (if_pos h))

/-- Settles O53: a coordinate that fits is written as its byteLen bytes, and a wider one ends the command before any write. -/
theorem pencResult : Obligations.PencResult := by
  unfold Obligations.PencResult
  refine ⟨opcodeMeans_of_row (fun _ _ _ => rfl) fun _ a _ => ⟨a, rfl⟩, fun a s _ ha =>
    ⟨assemble_toNat _ 0 a 0, fun hp hx hy => ?_, completes_penc_range ha,
      fun hp => completes_badParam (by simp [Instr.wf, ha]) hp rfl⟩⟩
  obtain ⟨t, m, he, henc, habove, hf⟩ := completes_penc_of_fits ha hp hx hy
  exact ⟨t, m, he, henc.tag, fun i hi => (henc.x i hi).trans (getElem?_bytesBE _ _ _ hi),
    fun i hi => (henc.y i hi).trans (getElem?_bytesBE _ _ _ hi), habove, hf⟩

/-! ### PDEC -/

/-- A run of reads over two halves of n bytes answers the one half after the other. -/
theorem Memory.readBytes_append {m : Memory} {a n : Nat} {xs ys : List Byte} (hxs : xs.length = n) (hys : ys.length = n)
    (hx : ∀ i < n, Memory.read m (a + i) = xs[i]?) (hy : ∀ i < n, Memory.read m (a + n + i) = ys[i]?) :
    Memory.readBytes m a (2 * n) = .ok (xs ++ ys) := by
  have hl : (xs ++ ys).length = 2 * n := by rw [List.length_append, hxs, hys, two_mul]
  rw [← hl]
  refine Memory.readBytes_of_read fun i hi => ?_
  rcases Nat.lt_or_ge i n with hlt | hge
  · rw [hx i hlt, List.getElem?_append_left (by omega)]
  · obtain ⟨j, rfl⟩ := Nat.exists_eq_add_of_le hge
    rw [← Nat.add_assoc, hy j (by omega), List.getElem?_append_right (by omega), hxs, Nat.add_sub_cancel_left]

/-- A value of at most W bits is the register content it makes (10 R33). -/
theorem toNat_toBig_of_lt_width {w : Width} {x : Nat} (h : x < 2 ^ Config.wBits w) : (toBig x).toNat = x :=
  toNat_toBig (h.trans_le (Nat.pow_le_pow_right (by decide) (wBits_le w)))

theorem pdecOutcome_of_codecLen_ne {s : State} (hlen : s.codecLen.toNat ≠ 1 + 2 * byteLen s) (d : Reg) :
    pdecOutcome d s = .ok (writesRes false) := if_pos hlen

theorem pdecOutcome_of_tag_ne {s : State} (hlen : s.codecLen.toNat = 1 + 2 * byteLen s) {tag : Byte}
    (h0 : Memory.read s.buf 0 = some tag) (h4 : tag ≠ 4#8) (d : Reg) : pdecOutcome d s = .ok (writesRes false) := by
  simp [pdecOutcome, hlen, h0, h4]

section
variable {d : Reg} {s : State} (hd : d.val ≤ 14) (hs : paramsOk s = true)
include hd hs

/-- A legal PDEC whose checks pass is accepted with the outcome its reads give. -/
theorem exec_pdec_of_ok {p : Pending} (h : pdecOutcome d s = .ok p) :
    exec (.pdec d) s = .next (accept (encode (.pdec d)) p s) :=
  exec_of_outcome (by simp [Instr.wf, hd]) (by rw [outcome, if_pos hs, h])

/-- A PDEC whose length or tag test fails (43 R292). -/
theorem completes_pdec_invalid (h : pdecOutcome d s = .ok (writesRes false)) :
    ∃ t, exec (.pdec d) s = .next t ∧ Finishes t (afterCommand s (encode (.pdec d)) .ok false) :=
  ⟨_, exec_pdec_of_ok hd hs h, finishes_writesRes _ _ s⟩

/-- A PDEC of an encoding whose bytes hold values: the registers hold the big-endian integers of the two halves (43 R292). -/
theorem completes_pdec_of_bytes (hlen : s.codecLen.toNat = 1 + 2 * byteLen s) (h4 : Memory.read s.buf 0 = some 4#8)
    {bx byy : List Byte} (hbx : bx.length = byteLen s) (hby : byy.length = byteLen s)
    (hx : ∀ i < byteLen s, Memory.read s.buf (1 + i) = bx[i]?)
    (hy : ∀ i < byteLen s, Memory.read s.buf (1 + byteLen s + i) = byy[i]?) :
    ∃ (t : State) (x y : Big), exec (.pdec d) s = .next t ∧ x.toNat = natOfBE bx ∧ y.toNat = natOfBE byy
      ∧ Finishes t { afterCommand s (encode (.pdec d)) .ok true with v := setV (setV s.v d x) (d + 1) y } := by
  have hread := Memory.readBytes_append hbx hby hx hy
  have hout : pdecOutcome d s =
      .ok { writesRes true with vWrites := toPair d ⟨natOfBE bx, natOfBE byy⟩ } := by
    simp [pdecOutcome, hlen, h4, hread, List.take_left' hbx, List.drop_left' hbx]
  have hfits {bs : List Byte} (hl : bs.length = byteLen s) : (toBig (natOfBE bs)).toNat = natOfBE bs :=
    toNat_toBig_of_lt_width (natOfBE_lt_of_length_le hs hl.le)
  exact ⟨_, toBig (natOfBE bx), toBig (natOfBE byy), exec_pdec_of_ok hd hs hout, hfits hbx, hfits hby, rfl, rfl⟩

end

/-- Settles O54: the length test comes first, then the tag test; the bytes after the tag are the two coordinates. -/
theorem pdecResult : Obligations.PdecResult := by
  unfold Obligations.PdecResult
  refine ⟨opcodeMeans_of_row (fun _ _ _ => rfl) fun d _ _ => ⟨d, rfl⟩, fun d s _ hd =>
    ⟨assemble_toNat _ d 0 0, fun hp hlen => completes_pdec_invalid hd hp (pdecOutcome_of_codecLen_ne hlen d),
      fun hp hlen _ h0 h4 => completes_pdec_invalid hd hp (pdecOutcome_of_tag_ne hlen h0 h4 d),
      fun hp hlen h4 bx byy hbx hby hx hy => ?_, fun hp => ?_⟩⟩
  · obtain ⟨t, x, y, he, hvx, hvy, hf⟩ := completes_pdec_of_bytes hd hp hlen h4 hbx hby hx hy
    rw [natOfBE_eq_sum, hbx] at hvx
    rw [natOfBE_eq_sum, hby] at hvy
    exact ⟨t, x, y, he, hvx, hvy, hf⟩
  · exact completes_of_raiseError (by simp [Instr.wf, hd]) (by decide) (by simp [outcome, hp])

/-! ### The round trip -/

/-- The length of an encoding fits in CODEC_LEN (10 R46). -/
theorem toNat_encodingLength {s : State} (hs : paramsOk s = true) :
    (BitVec.ofNat 16 (1 + 2 * byteLen s)).toNat = 1 + 2 * byteLen s := by
  obtain ⟨-, hb, -⟩ := byteLen_bounds hs
  have hw := wBits_le s.width
  rw [BitVec.toNat_ofNat, Nat.mod_eq_of_lt (by omega)]

/-- A PDEC of the encoding of a point whose coordinates fit gives the point back. -/
theorem completes_pdec_of_holdsEncoding {d : Reg} {s : State} (hd : d.val ≤ 14) (hs : paramsOk s = true)
    (hlen : s.codecLen.toNat = 1 + 2 * byteLen s) {q : Affine} (henc : HoldsEncoding s.buf (byteLen s) q)
    (hx : q.x < 256 ^ byteLen s) (hy : q.y < 256 ^ byteLen s) :
    ∃ (t : State) (x y : Big), exec (.pdec d) s = .next t ∧ x.toNat = q.x ∧ y.toNat = q.y
      ∧ Finishes t { afterCommand s (encode (.pdec d)) .ok true with v := setV (setV s.v d x) (d + 1) y } := by
  have h := completes_pdec_of_bytes hd hs hlen henc.tag (length_bytesBE _ _) (length_bytesBE _ _) henc.x henc.y
  rwa [natOfBE_bytesBE _ _ hx, natOfBE_bytesBE _ _ hy] at h

/-- Settles O56: PDEC finds in BUF the encoding PENC left there, and CODEC_LEN is its length. -/
theorem codecRoundTrip : Obligations.CodecRoundTrip := by
  unfold Obligations.CodecRoundTrip
  intro a d s ⟨_, hs⟩ ha hd hx hy
  obtain ⟨t, m, he, henc, -, -, hf⟩ := completes_penc_of_fits ha hs hx hy
  obtain ⟨t', x, y, he', hvx, hvy, -, hf'⟩ := completes_pdec_of_holdsEncoding
    (s := { afterCommand s (encode (.penc a)) .ok false with
      buf := m, codecLen := BitVec.ofNat 16 (1 + 2 * byteLen s) })
    hd hs (toNat_encodingLength hs) henc hx hy
  obtain rfl : x = readV s a := BitVec.eq_of_toNat_eq hvx
  obtain rfl : y = readV s (a + 1) := BitVec.eq_of_toNat_eq hvy
  refine ⟨t, t', he, hf ▸ he', ?_⟩
  rw [hf']
  exact ⟨rfl, rfl, by simp [readV, get_setV], by simp [readV, get_setV]⟩

end Sys2Proof.Machine
end

section
/-! PROOFS. The life of a command: its acceptance, its completion, and the checks that come before it computes (60 R320 to
R328). -/
namespace Sys2Proof.Machine

/-- Settles O22: every next state of `exec` is an acceptance, and every outcome is well formed. -/
theorem acceptanceChangesOnly : Obligations.AcceptanceChangesOnly := by
  unfold Obligations.AcceptanceChangesOnly
  intro i s t h
  obtain ⟨p, hp, rfl, -⟩ := exec_next_cases h
  exact ⟨p, ⟨hp.err, hp.inBuf⟩, rfl⟩

/-- Settles O24: an outcome with an error is `raiseError` of it, whose completion writes STATUS alone. -/
theorem errorsArePrecise : Obligations.ErrorsArePrecise := by
  unfold Obligations.ErrorsArePrecise
  intro i s t h herr
  obtain ⟨p, hp, rfl, -⟩ := exec_next_cases h
  rw [engineStep_accept, complete_err] at herr
  obtain ⟨-, hfin⟩ := finishes_raiseError (encode i) p.err herr s
  rw [← hp.err herr] at hfin
  rw [hfin, afterCommand_status]

/-! ### Completion -/

theorem engineStep_of_busy {s : State} {p : Pending} (h : s.engine = .busy p) : engineStep s = complete p s := by
  simp [engineStep, h]

/-- At the engine's turn a step is `engineStep` of the state with the event taken off the schedule (log 4). -/
theorem step_of_engineTurn {s : State} (h : s.inputs = [] ∨ ∃ rest, s.inputs = .engineTurn :: rest) :
    step s = .next (engineStep { s with inputs := s.inputs.tail }) := by
  rcases h with hnil | ⟨rest, hturn⟩
  · have hsame : { s with inputs := s.inputs.tail } = s := by rw [hnil, List.tail_nil, ← hnil]
    rw [step_nil hnil, hsame]
  · rw [step_cons hturn, hturn]; rfl

/-- Settles O23: the turn completes the pending outcome, whose writes the laws of V and BUF describe one by one. -/
theorem completionStep : Obligations.CompletionStep := by
  unfold Obligations.CompletionStep
  intro s hturn
  have hstep := step_of_engineTurn hturn
  refine ⟨hstep, fun hidle => ?_, fun p hp => ?_⟩
  · have hidle' : isBusy { s with inputs := s.inputs.tail } = false := hidle
    rw [hstep, engineStep_of_idle hidle']
  have hp' : State.engine { s with inputs := s.inputs.tail } = .busy p := hp
  rw [hstep, engineStep_of_busy hp']
  refine ⟨fun hok => ?_, fun herr => ?_⟩
  · refine ⟨writeRegs s.v p.vWrites, Memory.writeBytes s.buf 0 p.buf, ?_,
      fun hnodup _ => get_writeRegs_of_mem _ hnodup, get_writeRegs_of_notMem _ _, fun a => ?_⟩
    · rw [complete_of_ok hok]
    · simp [Memory.read_writeBytes]
  · rw [complete_of_err herr]

/-! ### The checks before a command computes -/

/-- A term whose word is illegal (30 R127; log 11). -/
theorem completes_illegal {i : Instr} (hwf : i.wf = false) (s : State) :
    ∃ t, exec i s = .next t ∧ Finishes t (afterCommand s (encode i) .illegal false) := by
  refine ⟨_, ?_, finishes_raiseError (encode i) .illegal (by decide) s⟩
  simp [exec_eq_issueOrFault, issueOrFault, hwf]

/-- The parameter check comes before anything else of a command that makes it (60 R323). -/
theorem outcome_of_not_paramsOk {i : Instr} {s : State} (hi : checksParams i = true) (hp : paramsOk s = false) :
    outcome i s = .ok (raiseError .badParam) := by
  cases i with
  | nop | mov => cases hi
  | pdec d => rw [outcome, hp]; rfl
  | _ => rw [outcome, withParams_of_not hp]

/-- Settles O26: the word's legality is tested first, then the parameters, then the scalar's length. -/
theorem errorPriority : Obligations.ErrorPriority := by
  unfold Obligations.ErrorPriority
  intro i s _
  simp only [← paramsOk_iff, Bool.not_eq_true]
  refine ⟨fun hwf => completes_illegal hwf s, fun hwf hi hp => ?_, fun hwf hp hlen hi => ?_⟩
  · exact completes_of_raiseError hwf (by decide) (outcome_of_not_paramsOk hi hp)
  · rcases hi with ⟨d, a, b, rfl⟩ | ⟨d, a, rfl⟩
    · obtain ⟨-, -, hlong, -⟩ := completes_of_scalarMult (i := .smul d a b) (s := s) hwf rfl
      exact hlong hp hlen
    · obtain ⟨-, -, hlong, -⟩ := completes_of_scalarMult (i := .sbmul d a) (s := s) hwf rfl
      exact hlong hp hlen

end Sys2Proof.Machine
end

section
/-! PROOFS. For a prime P no command that starts from affine points misses an inverse: every Z it meets is below P, and such a
Z is 0 or prime to P (60 R324). -/
namespace Sys2Proof.Machine

/-- The conversion of a triple with a reduced Z succeeds for a prime P. -/
theorem affineFromJacobian_ne_none_of_prime {P : Nat} (hP : P.Prime) {j : Jac} (hz : j.z < P) :
    affineFromJacobian P j ≠ none := by
  rw [ne_eq, affineFromJacobian_eq_none_iff, Nat.mod_eq_of_lt hz]
  exact fun ⟨h0, hgcd⟩ => hgcd (Nat.coprime_of_lt_prime h0 hz hP).symm

theorem jacOfAffine_z_lt {P : Nat} (hP : 1 < P) (q : Affine) : (jacOfAffine q).z < P := by
  simp only [jacOfAffine, zForAffine]
  split <;> omega

theorem doubleJacobian_z_lt {P : Nat} (hP : 0 < P) (j : Jac) : (doubleJacobian P j).z < P := modP_lt hP _

/-- The Z of a sum is an operand's or a residue. -/
theorem addJacobian_z_lt {P : Nat} (hP : 0 < P) {j k : Jac} (hj : j.z < P) (hk : k.z < P) : (addJacobian P j k).z < P := by
  by_cases hj0 : j.z = 0
  · rwa [addJacobian_of_z_eq_zero P k hj0]
  by_cases hk0 : k.z = 0
  · rwa [addJacobian_of_second_z_eq_zero P hj0 hk0]
  rw [addJacobian_of_z_ne_zero hP hj0 hk0]
  split
  · exact doubleJacobian_z_lt hP j
  · exact modP_lt hP _

theorem scalarStep_z_lt {P : Nat} (hP : 1 < P) (q : Affine) (k j : Nat) (acc : Jac) : (scalarStep P q k j acc).z < P := by
  have hdbl := doubleJacobian_z_lt (zero_lt_one.trans hP) acc
  unfold scalarStep
  split
  · exact addJacobian_z_lt (zero_lt_one.trans hP) hP hdbl
  · exact hdbl

theorem scalarLoop_z_lt {P : Nat} (hP : 1 < P) (q : Affine) (k n : Nat) {acc : Jac} (hacc : acc.z < P) :
    (scalarLoop P q k n acc).z < P := by
  induction n generalizing acc with
  | zero => exact hacc
  | succ n ih => exact ih (scalarStep_z_lt hP q k n acc)

theorem addAffine_ne_none_of_prime {P : Nat} (hP : P.Prime) (q r : Affine) : addAffine P q r ≠ none :=
  affineFromJacobian_ne_none_of_prime hP <|
    addJacobian_z_lt hP.pos (jacOfAffine_z_lt hP.one_lt q) (jacOfAffine_z_lt hP.one_lt r)

theorem doubleAffine_ne_none_of_prime {P : Nat} (hP : P.Prime) (q : Affine) : doubleAffine P q ≠ none :=
  affineFromJacobian_ne_none_of_prime hP (doubleJacobian_z_lt hP.pos _)

theorem scalarMult_ne_none_of_prime {P : Nat} (hP : P.Prime) (q : Affine) (k klen : Nat) : scalarMult P q k klen ≠ none :=
  affineFromJacobian_ne_none_of_prime hP (scalarLoop_z_lt hP.one_lt q k _ hP.pos)

section
variable {s : State}

theorem withParams_err_ne_notInvertible {k : Nat → Pending} (h : (k (modulus s)).err ≠ .notInvertible) :
    (withParams s k).err ≠ .notInvertible := by
  unfold withParams; split
  · exact h
  · nofun

theorem withScalarLen_err_ne_notInvertible {k : Nat → Pending} (h : ∀ n, (k n).err ≠ .notInvertible) :
    (withScalarLen s k).err ≠ .notInvertible := by
  unfold withScalarLen; split
  · exact h _
  · nofun

theorem orNotInvertible_err_ne_notInvertible {r : Option Affine} (hr : r ≠ none) (d : Reg) :
    (orNotInvertible r fun q => writesV (toPair d q)).err ≠ .notInvertible := by
  obtain ⟨q, rfl⟩ := Option.ne_none_iff_exists'.1 hr
  nofun

/-- The outcome of SMUL and SBMUL, whatever the operand and the scalar are (42 R261, R262). -/
theorem scalarMult_outcome_err_ne_notInvertible (hP : (modulus s).Prime) (d : Reg) (q : Affine) (k : Nat) :
    (withParams s fun P => withScalarLen s fun n =>
      orNotInvertible (scalarMult P q k n) fun r => writesV (toPair d r)).err ≠ .notInvertible :=
  withParams_err_ne_notInvertible <| withScalarLen_err_ne_notInvertible fun _ =>
    orNotInvertible_err_ne_notInvertible (scalarMult_ne_none_of_prime hP q k _) d

end

/-- Settles O46: an ill-formed term reports ILLEGAL, a failed check its own code, and past the checks the conversion of a
reduced Z has a result. -/
theorem primeNeverNotInvertible : Obligations.PrimeNeverNotInvertible := by
  unfold Obligations.PrimeNeverNotInvertible
  intro i s t hP h hi
  obtain ⟨p, -, rfl, ⟨-, ho⟩ | ⟨-, rfl⟩⟩ := exec_next_cases h
  · rw [engineStep_accept, complete_err]
    rcases hi with ⟨d, a, b, rfl⟩ | ⟨d, a, rfl⟩ | ⟨d, a, b, rfl⟩ | ⟨d, a, rfl⟩ <;> cases ho
    · exact withParams_err_ne_notInvertible <|
        orNotInvertible_err_ne_notInvertible (addAffine_ne_none_of_prime hP _ _) d
    · exact withParams_err_ne_notInvertible <|
        orNotInvertible_err_ne_notInvertible (doubleAffine_ne_none_of_prime hP _) d
    · exact scalarMult_outcome_err_ne_notInvertible hP d _ _
    · exact scalarMult_outcome_err_ne_notInvertible hP d _ _
  · rw [engineStep_accept, complete_err]
    nofun

end Sys2Proof.Machine
end

section
/-! PROOFS. Writes to CMD, the interrupt line, and what can stop a step or end a run (60 R326, R330, R340, 70 R385). -/
namespace Sys2Proof.Machine

theorem writeEffect_cmd_of_idle {s : State} (h : isBusy s = false) (w : Word) : writeEffect .cmd w s = acceptWord w s := by
  simp [writeEffect, h]

theorem acceptWord_of_decode {w : Word} {i : Instr} (h : decode w = .ok i) (s : State) : acceptWord w s = exec i s := by
  simp [acceptWord, h]

/-- Settles O6: the four offsets of CMD's word reach CMD, where an IDLE engine executes a legal word. -/
theorem stepRunsDecodedCommand : Obligations.StepRunsDecodedCommand := by
  unfold Obligations.StepRunsDecodedCommand
  refine ⟨fun s k w rest i hk hin hidle hd => ?_, fun s off x rest hoff hin => step_write_of_in hoff hin⟩
  obtain ⟨hcsr, -⟩ := addressMap s.width
  obtain ⟨-, -, -, hcmd, -⟩ := hcsr k hk
  rw [Nat.add_assoc] at hin
  have hidle' : isBusy { s with inputs := rest } = false := hidle
  rw [step_write_of_in (by omega) hin, hcmd, writeEffect_cmd_of_idle hidle', acceptWord_of_decode hd]

/-! ### The interrupt line -/

theorem irq_of_not_done {s : State} (h : s.status.done = false) : irq s = false := by simp [irq, h]

theorem exists_pending_of_busy {s : State} (h : isBusy s = true) : ∃ p, s.engine = .busy p := by
  cases he : s.engine with
  | idle => simp [isBusy, he] at h
  | busy p => exact ⟨p, rfl⟩

/-- A word accepted at CMD clears DONE (60 R326). -/
theorem acceptWord_done {w : Word} {s t : State} (h : acceptWord w s = .next t) : t.status.done = false := by
  rcases acceptWord_cases w s with ⟨c, p, -, he⟩ | ⟨f, he⟩
  · rw [he] at h; cases h; rfl
  · rw [he] at h; cases h

/-- Settles O20: a completion sets DONE and keeps DONE_IE; every event that brings irq to 0 clears DONE. -/
theorem interruptLine : Obligations.InterruptLine := by
  unfold Obligations.InterruptLine
  intro s x
  refine ⟨by simp [irq], fun hb => ?_, ⟨_, rfl, rfl⟩, fun hx => ⟨_, rfl, irq_of_not_done ?_⟩, fun hidle t h => ?_,
    fun hx => ⟨_, rfl, irq_of_not_done ?_⟩, irq_of_not_done rfl⟩
  · obtain ⟨p, hp⟩ := exists_pending_of_busy hb
    simp [irq, engineStep_of_busy hp]
  · simp [hx]
  · rw [writeEffect_cmd_of_idle hidle] at h
    exact irq_of_not_done (acceptWord_done h)
  · rw [if_pos hx, softReset_status]

/-! ### Faults -/

/-- The one word at which CMD faults is a PDEC's, at a byte of its encoding that holds no value (60 R340 item 1). -/
theorem acceptWord_eq_fault {w : Word} {s : State} {f : Fault} (h : acceptWord w s = .fault f) :
    ∃ d n, w = encode (.pdec d) ∧ f = .bufByteUnwritten n ∧ paramsOk s = true ∧ s.codecLen.toNat = 1 + 2 * byteLen s
      ∧ n < s.codecLen.toNat ∧ Memory.read s.buf n = none := by
  cases hd : decode w with
  | error e => simp [acceptWord, hd] at h
  | ok i =>
    obtain ⟨he, -⟩ := encodeOfDecode w i hd
    rw [acceptWord_of_decode hd] at h
    rcases exec_cases i s with ⟨p, -, hn, -⟩ | ⟨f', -, ho, hf⟩
    · rw [hn] at h; cases h
    · rw [hf] at h; cases h
      obtain ⟨d, n, rfl, hrest⟩ := outcome_error ho
      exact ⟨d, n, he.symm, hrest⟩

/-- A host write faults only as the acceptance of a command. -/
theorem writeEffect_eq_fault {tg : Target} {x : Word} {s : State} {f : Fault} (h : writeEffect tg x s = .fault f) :
    tg = .cmd ∧ isBusy s = false ∧ acceptWord x s = .fault f := by
  cases tg with
  | cmd =>
    simp only [writeEffect] at h
    split at h
    · cases h
    · next hidle => exact ⟨rfl, eq_false_of_ne_true hidle, h⟩
  | _ => cases h

/-- An event faults only as a 4-byte write inside the window. -/
theorem busEvent_eq_fault {e : BusEvent} {s : State} {f : Fault} (h : busEvent e s = .fault f) :
    ∃ off x, off < 0x4000 ∧ e = .write (s.base + off) 4 x ∧ writeEffect (target s.width off) x s = .fault f := by
  cases e with
  | engineTurn | powerOn => cases h
  | read address size =>
    simp only [busEvent] at h
    split at h
    · cases h
    · split at h <;> cases h
  | write address size x =>
    simp only [busEvent] at h
    split at h
    · cases h
    next hwin =>
      split at h
      · cases h
      next hsize =>
        obtain ⟨hlo, hhi⟩ := (inWindow_iff s.base address).1 (by simpa using hwin)
        obtain rfl : size = 4 := not_not.1 hsize
        exact ⟨address - s.base, x, by omega, by rw [Nat.add_sub_cancel' hlo], h⟩

/-! ### Refusals -/

theorem acceptWord_ne_refused (w : Word) (s : State) (r : Refusal) : acceptWord w s ≠ .refused r := by
  rcases acceptWord_cases w s with ⟨c, p, -, he⟩ | ⟨f, he⟩ <;> simp [he]

theorem writeEffect_ne_refused (tg : Target) (x : Word) (s : State) (r : Refusal) : writeEffect tg x s ≠ .refused r := by
  intro h
  cases tg with
  | cmd =>
    simp only [writeEffect] at h
    split at h
    · cases h
    · exact acceptWord_ne_refused x s r h
  | _ => cases h

/-- An event is refused only as an access inside the window of another width than 4 bytes (60 R340 item 2). -/
theorem busEvent_eq_refused {e : BusEvent} {s : State} {r : Refusal} (h : busEvent e s = .refused r) :
    ∃ n address w, r = .accessWidth n ∧ n ≠ 4 ∧ (e = .read address n ∨ e = .write address n w)
      ∧ s.base ≤ address ∧ address < s.base + 0x4000 := by
  cases e with
  | engineTurn | powerOn => cases h
  | read address size =>
    simp only [busEvent] at h
    split at h
    · cases h
    next hwin =>
      split at h <;> cases h
      next hsize => exact ⟨size, address, 0, rfl, hsize, .inl rfl, (inWindow_iff _ _).1 (by simpa using hwin)⟩
  | write address size x =>
    simp only [busEvent] at h
    split at h
    · cases h
    next hwin =>
      split at h
      next hsize =>
        cases h
        exact ⟨size, address, x, rfl, hsize, .inr rfl, (inWindow_iff _ _).1 (by simpa using hwin)⟩
      · exact absurd h (writeEffect_ne_refused _ _ _ _)

/-! ### The end of a run -/

/-- A run of one step more than the schedule has events ends with an empty schedule and an IDLE engine (70 R385): each step
takes an event, and the last is the engine's turn. -/
theorem runFor_end {n : Nat} {s e : State} (hlen : s.inputs.length = n) (h : runFor (n + 1) s = .next e) :
    e.inputs = [] ∧ isBusy e = false := by
  induction n generalizing s with
  | zero =>
    have hnil := List.eq_nil_of_length_eq_zero hlen
    simp only [runFor, step_nil hnil] at h
    cases h
    exact ⟨by rw [engineStep_inputs, hnil], isBusy_engineStep s⟩
  | succ n ih =>
    rw [runFor] at h
    split at h
    · next t ht => exact ih (by rw [step_inputs ht, List.length_tail, hlen, Nat.add_sub_cancel]) h
    · cases h
    · cases h

/-- Settles O60: the stops are found by following a step down to the event, the write and the command; a run that meets none
uses up its schedule, and an IDLE engine's turn changes nothing. -/
theorem onlyStops : Obligations.OnlyStops := by
  unfold Obligations.OnlyStops
  intro s
  refine ⟨fun f h => ?_, fun r h => ?_, fun e h => ?_⟩
  · cases hin : s.inputs with
    | nil => rw [step_nil hin] at h; cases h
    | cons e rest =>
      rw [step_cons hin] at h
      obtain ⟨off, x, hoff, rfl, hw⟩ := busEvent_eq_fault h
      obtain ⟨hcmd, hidle, ha⟩ := writeEffect_eq_fault hw
      obtain ⟨d, n, rfl, rfl, hp, hlen, hn, hnone⟩ := acceptWord_eq_fault ha
      obtain ⟨hlo, hhi⟩ := target_eq_cmd hoff hcmd
      exact ⟨n, d, rfl, hn, hnone, hp, hlen, hidle, s.base + off, rest, rfl, by omega, by omega⟩
  · cases hin : s.inputs with
    | nil => rw [step_nil hin] at h; cases h
    | cons e rest =>
      rw [step_cons hin] at h
      obtain ⟨n, address, w, rfl, hn, he, hlo, hhi⟩ := busEvent_eq_refused h
      exact ⟨n, address, rest, w, rfl, hn, by simpa using he, hlo, hhi⟩
  · obtain ⟨hnil, hidle⟩ := runFor_end rfl h
    exact ⟨by simp [runOver, hnil, hidle], hnil, hidle, by rw [step_nil hnil, engineStep_of_idle hidle]⟩

end Sys2Proof.Machine
end

section
/-! PROOFS. Power-on reset and soft reset (70 R380, R381, R384): the state each leaves, and the parameters of a block (00 R8). -/
namespace Sys2Proof.Machine

theorem target_ctrl (w : Width) : target w 0x008 = .ctrl := target_of_lt_0x100 w (by decide)

/-! ### The state after power-on reset -/

section
variable (w : Width) (base : Nat)

@[simp] theorem readV_resetAt (r : Reg) : readV (State.resetAt w base) r = 0#1024 := by
  simp [readV, State.resetAt, Vector.get_eq_getElem]

@[simp] theorem readPrm_resetAt (r : PrmReg) : readPrm (State.resetAt w base).prm r = 0#1024 := by
  cases r <;> rfl

/-- An aligned block meets the invariant after power-on reset: nothing is pending, BUF is empty and every register holds 0. -/
theorem inv_resetAt (h : 0x4000 ∣ base) : Inv (State.resetAt w base) := by
  refine ⟨⟨List.Pairwise.nil, nofun⟩, fun _ => ⟨rfl, rfl, rfl⟩, nofun, fun _ => rfl, h, fun r => ?_, fun r => ?_⟩
  · rw [readV_resetAt]; exact fits_zero _
  · rw [readPrm_resetAt]; exact fits_zero _

/-- After power-on reset a program is entered cleanly that relies on no register and no BUF byte (70 R384). -/
theorem cleanEntry_resetAt (prog : List BusEvent) :
    CleanEntry prog ⟨[], [], []⟩ { State.resetAt w base with inputs := prog } :=
  ⟨rfl, rfl, rfl, List.forall_mem_nil _, List.forall_mem_nil _, rfl⟩

theorem readTarget_status_resetAt : readTarget .status (State.resetAt w base) = 0#32 :=
  BitVec.eq_of_toNat_eq (statusWordFields (State.resetAt w base))

/-- Every CSR but ID and CFG reads 0 after power-on reset (70 R380). -/
theorem readTarget_resetAt_eq_zero {tg : Target} (h : tg ∈ [Target.ctrl, .cmd, .status, .irqen, .bitsize, .klen, .codecLen]) :
    readTarget tg (State.resetAt w base) = 0#32 := by
  simp only [List.mem_cons, List.not_mem_nil, or_false] at h
  rcases h with rfl | rfl | rfl | rfl | rfl | rfl | rfl
  exacts [rfl, rfl, readTarget_status_resetAt w base, rfl, rfl, rfl, rfl]

end

/-- Settles O58: the invariant speaks of no event, so it holds of the reset state whatever program is placed in it. -/
theorem resetHasInv : Obligations.ResetHasInv := by
  unfold Obligations.ResetHasInv
  exact ⟨inv_resetAt _ _ (dvd_zero _), fun w base prog h => ⟨inv_resetAt w base h, cleanEntry_resetAt w base prog⟩⟩

/-! ### The parameters of a block -/

/-- The legal W are the multiples of 32 from 64 to 1024 (00 R8). -/
theorem exists_wBits_eq_iff (n : Nat) : (∃ w, Config.wBits w = n) ↔ n % 32 = 0 ∧ 64 ≤ n ∧ n ≤ 1024 := by
  simp only [Config.wBits, Config.bigWords]
  constructor
  · rintro ⟨w, rfl⟩
    have := w.extra.isLt
    omega
  · rintro ⟨hmod, hlo, hhi⟩
    exact ⟨⟨⟨n / 32 - 2, by omega⟩⟩, by dsimp only; omega⟩

theorem bigWords_eq_wBits_div (w : Width) : Config.bigWords w = Config.wBits w / 32 :=
  (Nat.mul_div_cancel_left _ (by decide)).symm

/-- BUFBYTES is the least multiple of 4 that holds the longest encoding, 1 + 2·(W/8) bytes (00 R8). -/
theorem bufBytes_bounds (w : Width) : Config.bufBytes w % 4 = 0 ∧ 1 + 2 * (Config.wBits w / 8) ≤ Config.bufBytes w
    ∧ Config.bufBytes w < 1 + 2 * (Config.wBits w / 8) + 4 := by
  simp only [Config.bufBytes]
  omega

end Sys2Proof.Machine

/-! The obligations named after the model's operations `softReset` and `powerOnReset` have a namespace of their own. -/
namespace Sys2Proof.Machine.Reset

/-- Settles O19: the step is the write's effect on CTRL, which is `softReset` when bit 0 is set and nothing when it is not. -/
theorem softReset : Obligations.SoftReset := by
  unfold Obligations.SoftReset
  intro s x rest hin
  rw [step_write_of_in (by decide) hin, target_ctrl]
  rfl

/-- Settles O59: the reset values are read off `State.resetAt`, CFG and the parameters through their laws. -/
theorem powerOnReset : Obligations.PowerOnReset := by
  unfold Obligations.PowerOnReset
  refine ⟨⟨0, rfl⟩, rfl, fun s rest hin => ?_, fun w base => ?_, exists_wBits_eq_iff, fun w => ?_⟩
  · rw [step_cons hin]
    rfl
  · exact ⟨rfl, rfl, toNat_cfgWord w, fun tg => readTarget_resetAt_eq_zero w base, rfl, rfl, rfl, fun _ => rfl⟩
  · obtain ⟨hmod, hlo, hhi⟩ := bufBytes_bounds w
    exact ⟨bigWords_eq_wBits_div w, rfl, hmod, hlo, hhi, rfl⟩

end Sys2Proof.Machine.Reset
end
